-- ==== Sys2Proof/Word.lean ====
section
/-!
DEFINITION. The two value types of the spec (00_scope.md rule R9): `u32` and `u8`, both unsigned.
Arithmetic on `Word` wraps modulo 2^32, as rule R10 asks; `>>>` is the logical right shift.
-/

namespace Sys2Proof

/-- `u32` of rule R9. -/
abbrev Word := BitVec 32

/-- `u8` of rule R9. -/
abbrev Byte := BitVec 8

end Sys2Proof
end

