-- ==== Sys2Proof/Config.lean ====
section
/-!
DEFINITION. What an implementation fixes (00_scope.md rule R8), and the free values: constants with no
body, for what the spec leaves at "any value" (93_implementation_defined.md U1, U2).
-/

namespace Sys2Proof

/-- The implementation parameters of rule R8. "A model takes each one as an argument": they stand in
`State`, which no step changes them in, so that a statement over all states holds for all of them
(log 1). Their legal values are `Params.Legal`. -/
structure Params where
  /-- `MEM_SIZE`, the number of bytes of BUF. -/
  memSize : Nat
  /-- `BUF_BASE`, the window offset of BUF byte 0. -/
  bufBase : Nat
  /-- `BLOCK_BASE`, the platform address of the block's window. -/
  blockBase : Nat
deriving DecidableEq, Repr

/-- The parameters `State.reset` takes: the values of the programs in 95_test_vectors.md, and a window
at platform address 0. DESIGN CHOICE, unsafe (log 1): rule R8 leaves all three OPEN. -/
def Config.resetParams : Params := { memSize := 4096, bufBase := 0x1000, blockBase := 0 }

/-- FREE VALUE (log 2): what BUF byte `addr` holds after the `resets`-th reset while nothing has
written it (rules R34, R230, U1). -/
opaque Config.unwrittenByte (resets addr : Nat) : Byte

/-- FREE VALUE (log 3): what the host's `draw`-th read returns where it reads RESULT or a key register
while BUSY = 1 (rule R241, U2). -/
opaque Config.busyWord (draw : Nat) : Word

/-- FREE VALUE (log 3): what the host's `draw`-th read returns where it reads a byte of a pending
DECRYPT_BUF's destination range (rule R241, U2). -/
opaque Config.busyByte (draw : Nat) : Byte

end Sys2Proof
end

