-- ==== Sys2Proof/Machine/Moves.lean ====
section
/-!
DEFINITION. What the host can do (60_exceptions.md rule R215, 30_encoding.md rule R99), what its reads
return, and who moves next. These are the two agents of 00_scope.md rule R14 as plain data.
-/

namespace Sys2Proof.Machine

/-- One statement of a host program (rule R99): a host move of rule R215, or `wait`. An address is a
platform address; the block's window begins at BLOCK_BASE (rule R60). -/
inductive HostMove where
  /-- A 32-bit write of `v`. -/
  | write32 (addr : Nat) (v : Word)
  /-- A one-byte write of `b`. -/
  | write8 (addr : Nat) (b : Byte)
  /-- A 32-bit read. -/
  | read32 (addr : Nat)
  /-- A one-byte read. -/
  | read8 (addr : Nat)
  /-- An access of any other width, which is outside the interface (rule R62). -/
  | otherWidth (bits addr : Nat)
  /-- Repeat reading STATUS until BUSY reads 0 (rule R99). -/
  | wait
  /-- Assert the block's reset (rule R230). -/
  | reset
deriving DecidableEq, Repr

/-- Who moves (rule R14). -/
inductive Turn where
  /-- The host performs one statement. -/
  | host (m : HostMove)
  /-- The engine takes its step, if a command is pending. -/
  | engine
deriving DecidableEq, Repr

/-- A value a host read returned. -/
inductive Observed where
  | word (v : Word)
  | byte (b : Byte)
deriving DecidableEq, Repr

/-- The registers of rule R90's map, reserved offsets aside. -/
inductive Reg where
  | cmd | arg0 | arg1 | arg2 | result | status | key0 | key1 | key2
deriving DecidableEq, Repr

end Sys2Proof.Machine
end

