-- ==== Sys2Proof/Machine/State.lean ====
section
/-!
DEFINITION. The block's state (10_state.md rules R20 and R37), its state after reset
(70_reset_and_hazards.md rule R230), and the reasons a step can stop.
-/

namespace Sys2Proof.Machine

/-- The Key State (rule R21): KEY0, KEY1 and KEY2, an ordered triple of 32-bit unsigned integers. -/
structure KeyState where
  key0 : Word
  key1 : Word
  key2 : Word
deriving DecidableEq, Repr

/-- STATUS.PHASE (rule R30): 0 is UNINIT, 1 is POSITIONED. -/
inductive Phase where
  | uninit
  | positioned
deriving DecidableEq, Repr

/-- The values STATUS.ERR takes (60_exceptions.md rule R200). Codes 6 to 15 are never produced, so they
have no constructor. -/
inductive ErrCode where
  | ok
  | range
  | argument
  | resource
  | sequence
  | illegal
deriving DecidableEq, Repr

/-- What PEND latches at issue (rule R33): the command word and copies of ARG0, ARG1 and ARG2. -/
structure Pend where
  cmd : Word
  a0 : Word
  a1 : Word
  a2 : Word
deriving DecidableEq, Repr

/-- BUF as the bytes written since reset, as (address, byte) pairs with strictly rising addresses
(`Memory.Wf`). A byte that is not listed is unwritten: it reads as the free value
`Config.unwrittenByte` (log 2). -/
abbrev Memory := List Host.Cell

/-- The state of rule R20. The fields from `params` to `buf` are the spec's; the last four are the
model's own (INVENTORY.md). CRC_TABLE is a constant, not a field (rule R37). -/
structure State where
  /-- The parameters of rule R8; no step changes them. -/
  params : Params
  /-- KEY0, KEY1, KEY2. -/
  keys : KeyState
  arg0 : Word
  arg1 : Word
  arg2 : Word
  result : Word
  /-- STATUS.BUSY. -/
  busy : Bool
  /-- STATUS.PHASE. -/
  phase : Phase
  /-- STATUS.ERR. -/
  err : ErrCode
  pend : Option Pend
  /-- POS, ghost: the i of Positioned(i); none is "no value in UNINIT" (rule R31). -/
  pos : Option Nat
  buf : Memory
  /-- Model's own: resets since power-on; picks the free bytes of BUF (log 2). -/
  resets : Nat
  /-- Model's own: who moves next, in order (log 4). -/
  agenda : List Turn
  /-- Model's own: what the host's reads returned, newest first; its length counts the draws (log 3). -/
  seen : List Observed
  /-- Model's own: every nonzero ERR written, newest first (rule R206; log 10). -/
  errLog : List ErrCode
deriving DecidableEq, Repr

/-- Rule R230's table, for a block with parameters `p`. -/
def State.resetWith (p : Params) : State :=
  { params := p
    keys := { key0 := 0, key1 := 0, key2 := 0 }
    arg0 := 0
    arg1 := 0
    arg2 := 0
    result := 0
    busy := false
    phase := .uninit
    err := .ok
    pend := none
    pos := none
    buf := []
    resets := 0
    agenda := []
    seen := []
    errLog := [] }

/-- The block right after power-on reset. -/
def State.reset : State := State.resetWith Config.resetParams

/-- Why a step can fault. -/
inductive Fault where
  /-- Raised by the meaning of every command, when the state has no pending command to complete (PEND
  is empty). SAFE: the engine's step is enabled exactly when BUSY = 1, which holds exactly when PEND is
  not empty (rules R37, R203), so no state that meets that invariant raises it. -/
  | noCommandPending
deriving DecidableEq, Repr

/-- Why a step can be refused. All but the first are host moves the spec itself refuses: "The model has
no move for it" (60_exceptions.md rule R215). No command is ever refused. -/
inductive Refusal where
  /-- Raised by an arm of `exec` for an instruction that has no meaning yet; there is none. SAFE. -/
  | notModelled (mnemonic : String)
  /-- Raised by a 32-bit or one-byte host access outside the block's window, below BLOCK_BASE or past BUF
  (rule R65; R68 by inference, log 6). SAFE. -/
  | outsideWindow
  /-- Raised by a 32-bit host access in the BUF window, a one-byte one in the register space, and one of
  any other width at every address (rule R62; log 6). SAFE. -/
  | wrongWidth
  /-- Raised by a 32-bit host access at an offset that is no multiple of 4 (rule R64). SAFE. -/
  | misaligned
  /-- Raised by a host write to CMD while BUSY = 1 (rule R240 (a), U3). UNSAFE in the spec's own sense:
  a program that does it has no run in the model (log 7). -/
  | commandWhileBusy
  /-- Raised by a host write to a BUF byte inside the pending command's ranges (rule R240 (b), U4).
  UNSAFE in the same sense (log 7). -/
  | pendingRangeWrite
deriving DecidableEq, Repr

end Sys2Proof.Machine
end

