-- ==== Sys2Proof/Machine/Cipher.lean ====
section
/-!
DEFINITION. The cipher as pure functions: the key initializer and updater (41_key_schedule.md rules R130,
R131), the keystream byte and the byte decryptor (42_byte_decrypt.md rules R150, R151), the buffer
decryptor (43_buffer_decrypt.md rule R170), and the inverse direction for test ciphertext (rule R153).
-/

namespace Sys2Proof.Machine

/-- The IV: the three fixed seed constants (rule R130). -/
def KeyState.iv : KeyState := { key0 := 0x12345678, key1 := 0x23456789, key2 := 0x34567890 }

/-- `update_keys(state, c)` (rule R131). Each new key is used by the next line, as the primes mark. -/
def updateKeys (ks : KeyState) (c : Byte) : KeyState :=
  let key0 := crcStep c ks.key0
  let t := ks.key1 + (key0 &&& 0xFF)
  let key1 := t * 134775813 + 1
  let key2 := crcStep (((key1 >>> 24) &&& 0xFF).setWidth 8) ks.key2
  { key0, key1, key2 }

/-- `init_keys(password)` (rule R130): fold every byte, in order, from the IV. -/
def initKeys (password : List Byte) : KeyState := password.foldl updateKeys KeyState.iv

/-- `keystream_byte(key2)` (rule R150). -/
def keystreamByte (key2 : Word) : Byte :=
  let k := key2 ||| 0x00000002
  let prod := k * (k ^^^ 0x00000001)
  ((prod >>> 8) &&& 0xFF).setWidth 8

/-- `decrypt_byte(state, c)` (rule R151): the mask comes from the old key2 and the update is fed the
plaintext (rule R132). -/
def decryptByte (ks : KeyState) (c : Byte) : Byte × KeyState :=
  let plaintext := c ^^^ keystreamByte ks.key2
  (plaintext, updateKeys ks plaintext)

/-- `decrypt_buffer(state, ciphertext)` (rule R170): `decrypt_byte` in order, threading the state. -/
def decryptBuffer (ks : KeyState) : List Byte → List Byte × KeyState
  | [] => ([], ks)
  | c :: cs =>
    let r := decryptByte ks c
    let rest := decryptBuffer r.2 cs
    (r.1 :: rest.1, rest.2)

/-- `encrypt_byte(state, p)` (rule R153): for building test ciphertext, no command of the block (rule
R6). -/
def encryptByte (ks : KeyState) (p : Byte) : Byte × KeyState :=
  (p ^^^ keystreamByte ks.key2, updateKeys ks p)

/-- `encrypt_byte` along a sequence, as 95_test_vectors.md builds its ciphertext. -/
def encryptBuffer (ks : KeyState) : List Byte → List Byte × KeyState
  | [] => ([], ks)
  | p :: ps =>
    let r := encryptByte ks p
    let rest := encryptBuffer r.2 ps
    (r.1 :: rest.1, rest.2)

end Sys2Proof.Machine
end

