-- ==== Sys2Proof/Machine/Flags.lean ====
section
/-!
DEFINITION. STATUS as the host reads it (10_state.md rule R32) and the codes of STATUS.ERR
(60_exceptions.md rule R200).
-/

namespace Sys2Proof.Machine

/-- The code of an error (rule R200). -/
def ErrCode.code : ErrCode → BitVec 4
  | .ok => 0
  | .range => 1
  | .argument => 2
  | .resource => 3
  | .sequence => 4
  | .illegal => 5

/-- The PHASE bit (rule R30). -/
def Phase.bit : Phase → BitVec 1
  | .uninit => 0
  | .positioned => 1

/-- STATUS (rule R32), from the top: [31:12] 0, [11:8] ERR, [7:2] 0, [1] PHASE, [0] BUSY. -/
def State.statusWord (s : State) : Word :=
  (0 : BitVec 20) ++ s.err.code ++ (0 : BitVec 6) ++ s.phase.bit ++ BitVec.ofBool s.busy

end Sys2Proof.Machine
end

