-- ==== Sys2Proof/Syntax.lean ====
section
/-!
DEFINITION. The commands of the block (30_encoding.md rule R94, opcode_table.json): its "instructions"
(00_scope.md rule R3). A command word carries no operand; operands come from the latch PEND (rule R95).
-/

namespace Sys2Proof

/-- One constructor per row of the opcode table. -/
inductive Instr where
  /-- `INIT`, OP = 0x01: fold a password held in BUF into the keys (rule R140). -/
  | init
  /-- `DECRYPT_BYTE`, OP = 0x02: decrypt one ciphertext byte (rule R160). -/
  | decryptByte
  /-- `DECRYPT_BUF`, OP = 0x03: decrypt a run of BUF bytes (rule R180). -/
  | decryptBuf
deriving DecidableEq, Repr

end Sys2Proof
end

