-- ==== Sys2Proof/WellFormed.lean ====
section
/-!
DEFINITION. Well-formedness: of an instruction, of a command word (30_encoding.md rule R97) and of the
implementation parameters (00_scope.md rule R8).
-/

namespace Sys2Proof

/-- The command word's opcode field `OP`, bits [7:0] (rule R93). -/
def opField (w : Word) : Byte := w.extractLsb' 0 8

/-- The command word's reserved field `RSV`, bits [31:8] (rule R93). -/
def rsvField (w : Word) : BitVec 24 := w.extractLsb' 8 24

/-- Rule R97: a command word is legal exactly when RSV = 0 and OP is 0x01, 0x02 or 0x03. -/
abbrev LegalWord (w : Word) : Prop :=
  rsvField w = 0 ∧ (opField w = 0x01 ∨ opField w = 0x02 ∨ opField w = 0x03)

/-- A command has no operand field (rules R93, R94), so there is nothing an `Instr` could have wrong:
every check the spec makes on an operand is made at completion, on the latched ARG values. -/
def Instr.wf : Instr → Bool
  | .init => true
  | .decryptByte => true
  | .decryptBuf => true

/-- The legal values of the parameters (rule R8): MEM_SIZE from 1 to 2^32, BUF_BASE a multiple of 4 and
at least 0x40. BLOCK_BASE is platform-defined, so any. -/
abbrev Params.Legal (p : Params) : Prop :=
  1 ≤ p.memSize ∧ p.memSize ≤ 2 ^ 32 ∧ p.bufBase % 4 = 0 ∧ 0x40 ≤ p.bufBase

end Sys2Proof
end

