-- ==== Sys2Proof/Decode.lean ====
section
/-!
DEFINITION. The decoder (30_encoding.md rule R98), total on every 32-bit word and rejecting by name, and
the encoder (rule R94). The block moves a command word as one whole value (20_memory.md rule R63), so
there are no bytes to order.
-/

namespace Sys2Proof

/-- Why a word is no command (rule R97). Completing such a word raises ILLEGAL (rule R203). -/
inductive IllegalWord where
  /-- RSV, bits [31:8], is not 0. -/
  | reservedBits
  /-- OP is 0x00 or 0x04 to 0xFF. -/
  | reservedOpcode (op : Byte)
deriving DecidableEq, Repr

/-- Rule R98: RSV first, then OP. -/
def decode (w : Word) : Except IllegalWord Instr :=
  if rsvField w ≠ 0 then .error .reservedBits
  else if opField w = 0x01 then .ok .init
  else if opField w = 0x02 then .ok .decryptByte
  else if opField w = 0x03 then .ok .decryptBuf
  else .error (.reservedOpcode (opField w))

/-- The opcode of a command, the OP column of rule R94's table. -/
def opcode : Instr → Byte
  | .init => 0x01
  | .decryptByte => 0x02
  | .decryptBuf => 0x03

/-- The command word of a command: RSV = 0 above its opcode (rule R93). -/
def encode (i : Instr) : Word := (0 : BitVec 24) ++ opcode i

/-- The command word that a table row of `nbits` bits with value `w` stands for: the word's own bits,
every bit from `nbits` up 0. There is one format of 32 bits (rule R93), so a value that needs more is
no command word. -/
def tableWord (nbits w : Nat) : Option Word :=
  if w % 2 ^ nbits < 2 ^ 32 then some (BitVec.ofNat 32 (w % 2 ^ nbits)) else none

/-- The instruction the decoder reads from a row's word, bit 0 least significant, as rule R9 numbers. -/
def decodeTableWord (nbits w : Nat) : Option Instr :=
  match tableWord nbits w with
  | none => none
  | some c =>
    match decode c with
    | .ok i => some i
    | .error _ => none

end Sys2Proof
end

