-- ==== Sys2Proof/Machine/Operands.lean ====
section
/-!
DEFINITION. Operands of the commands, from the latch PEND (30_encoding.md rules R95, R96), buffer ranges
(20_memory.md rule R61), and the operands of host accesses: window offsets to registers and BUF bytes
(rules R90, R91).
-/

namespace Sys2Proof.Machine

/-- INIT's password base, the latched ARG0 (rule R95). -/
def Pend.pwBase (p : Pend) : Word := p.a0

/-- INIT's password length, the latched ARG1 (rule R95). -/
def Pend.pwLen (p : Pend) : Word := p.a1

/-- DECRYPT_BYTE's value, the latched ARG0 (rule R95). -/
def Pend.value (p : Pend) : Word := p.a0

/-- DECRYPT_BUF's source base, the latched ARG0 (rule R95). -/
def Pend.src (p : Pend) : Word := p.a0

/-- DECRYPT_BUF's destination base, the latched ARG1 (rule R95). -/
def Pend.dst (p : Pend) : Word := p.a1

/-- DECRYPT_BUF's length, the latched ARG2 (rule R95). -/
def Pend.len (p : Pend) : Word := p.a2

/-- Rule R96: the value is in [0, 255] exactly when its bits [31:8] are 0. -/
def inByteRange (value : Word) : Bool := value.extractLsb' 8 24 == 0

/-- Rule R96: the ciphertext byte, `value[7:0]`. -/
def lowByte (value : Word) : Byte := value.extractLsb' 0 8

/-- `valid(a, n)` (rule R61): `a + n` in unbounded integers. -/
def validRange (memSize : Nat) (a n : Word) : Bool := n == 0 || a.toNat + n.toNat ≤ memSize

/-- `overlap(a, b, n)` (rule R180), in unbounded integers. -/
def overlap (a b n : Word) : Bool := a.toNat < b.toNat + n.toNat && b.toNat < a.toNat + n.toNat

/-- Whether BUF address `x` lies in the range of base `a` and length `n` (rule R61). -/
def inRange (x : Nat) (a n : Word) : Bool := a.toNat ≤ x && x < a.toNat + n.toNat

/-- Whether BUF address `x` lies in a range the pending command reads or writes (rule R240 (b)): INIT's
password range, DECRYPT_BUF's source and destination ranges. -/
def Pend.touches (p : Pend) (x : Nat) : Bool :=
  match decode p.cmd with
  | .ok .init => inRange x p.pwBase p.pwLen
  | .ok .decryptByte => false
  | .ok .decryptBuf => inRange x p.src p.len || inRange x p.dst p.len
  | .error _ => false

/-- Whether BUF address `x` lies in a pending DECRYPT_BUF's destination range (rule R241). -/
def Pend.writes (p : Pend) (x : Nat) : Bool :=
  match decode p.cmd with
  | .ok .init => false
  | .ok .decryptByte => false
  | .ok .decryptBuf => inRange x p.dst p.len
  | .error _ => false

/-- The window offset of a register (rule R90). -/
def Reg.offset : Reg → Nat
  | .cmd => 0x00
  | .arg0 => 0x04
  | .arg1 => 0x08
  | .arg2 => 0x0C
  | .result => 0x10
  | .status => 0x14
  | .key0 => 0x18
  | .key1 => 0x1C
  | .key2 => 0x20

/-- The register at a window offset (rule R90); none is a reserved offset (rule R92). -/
def regAtOffset (off : Nat) : Option Reg :=
  if off = 0x00 then some .cmd
  else if off = 0x04 then some .arg0
  else if off = 0x08 then some .arg1
  else if off = 0x0C then some .arg2
  else if off = 0x10 then some .result
  else if off = 0x14 then some .status
  else if off = 0x18 then some .key0
  else if off = 0x1C then some .key1
  else if off = 0x20 then some .key2
  else none

/-- Where a 32-bit access at platform address `addr` goes (rules R60, R62, R64, R68): a register, a
reserved offset (none), or outside the interface. -/
def wordTarget (p : Params) (addr : Nat) : Except Refusal (Option Reg) :=
  if addr < p.blockBase then .error .outsideWindow
  else if p.bufBase + p.memSize ≤ addr - p.blockBase then .error .outsideWindow
  else if p.bufBase ≤ addr - p.blockBase then .error .wrongWidth
  else if (addr - p.blockBase) % 4 ≠ 0 then .error .misaligned
  else .ok (regAtOffset (addr - p.blockBase))

/-- Where a one-byte access at platform address `addr` goes (rules R62, R65, R91): a BUF address, or
outside the interface. -/
def byteTarget (p : Params) (addr : Nat) : Except Refusal Nat :=
  if addr < p.blockBase then .error .outsideWindow
  else if addr - p.blockBase < p.bufBase then .error .wrongWidth
  else if p.memSize ≤ addr - p.blockBase - p.bufBase then .error .outsideWindow
  else .ok (addr - p.blockBase - p.bufBase)

end Sys2Proof.Machine
end

