-- ==== Sys2Proof/Machine/Ops.lean ====
section
/-!
DEFINITION. The named operations over memory and registers: BUF, the writes a command or the host makes,
issuing a command (60_exceptions.md rule R203), ending one with success or with an error (rule R202), and
reset (70_reset_and_hazards.md rule R230).
-/

namespace Sys2Proof.Machine

/-- The canonical form of a memory: addresses strictly rise. What an unlisted address reads as is free, so
no entry can be known to equal it, and every written byte stays listed (log 2). -/
abbrev Memory.Wf (m : Memory) : Prop := m.Pairwise fun c d => c.1 < d.1

/-- The byte listed at an address, if any. -/
def Memory.lookup : Memory → Nat → Option Byte
  | [], _ => none
  | c :: m, a => if c.1 = a then some c.2 else Memory.lookup m a

/-- The memory with byte `v` at address `a`, in canonical form. -/
def Memory.write : Memory → Nat → Byte → Memory
  | [], a, v => [(a, v)]
  | c :: m, a, v =>
    if a < c.1 then (a, v) :: c :: m
    else if a = c.1 then (a, v) :: m
    else c :: Memory.write m a v

/-- `MemRead(a, 1)` (00_scope.md rule R11) on a memory: the byte written there, or the free value the
byte holds since the `resets`-th reset (20_memory.md rule R66; log 2). -/
def Memory.read (resets : Nat) (m : Memory) (a : Nat) : Byte :=
  (Memory.lookup m a).getD (Config.unwrittenByte resets a)

/-- BUF[a]. -/
def State.bufByte (s : State) (a : Nat) : Byte := Memory.read s.resets s.buf a

/-- The byte sequence of length `n` in BUF at `base`: element k is at `base + k` (rule R12). -/
def State.bufBytes (s : State) (base : Nat) : Nat → List Byte
  | 0 => []
  | n + 1 => s.bufByte base :: s.bufBytes (base + 1) n

/-- `(KEY0, KEY1, KEY2) <- ks`. -/
def State.setKeys (s : State) (ks : KeyState) : State := { s with keys := ks }

/-- `RESULT <- v`. -/
def State.setResult (s : State) (v : Word) : State := { s with result := v }

/-- `PHASE <- POSITIONED; POS <- 0` (rule R140). -/
def State.startStream (s : State) : State := { s with phase := .positioned, pos := some 0 }

/-- `POS <- POS + n` (rule R31); where POS has no value it keeps none. -/
def State.advance (s : State) (n : Nat) : State := { s with pos := s.pos.map (· + n) }

/-- BUF becomes `m`. -/
def State.setBuf (s : State) (m : Memory) : State := { s with buf := m }

/-- Host write to ARG0 (rule R28). -/
def State.setArg0 (s : State) (v : Word) : State := { s with arg0 := v }

/-- Host write to ARG1 (rule R28). -/
def State.setArg1 (s : State) (v : Word) : State := { s with arg1 := v }

/-- Host write to ARG2 (rule R28). -/
def State.setArg2 (s : State) (v : Word) : State := { s with arg2 := v }

/-- Issue (rule R203 (1)): `PEND <- (w, ARG0, ARG1, ARG2)` and `BUSY <- 1`; nothing else changes. -/
def State.issue (s : State) (w : Word) : State :=
  { s with busy := true, pend := some { cmd := w, a0 := s.arg0, a1 := s.arg1, a2 := s.arg2 } }

/-- The end of a command that succeeds: `ERR <- OK; PEND <- none; BUSY <- 0` (rule R203 (2)). -/
def State.succeed (s : State) : State := { s with err := .ok, busy := false, pend := none }

/-- `raise e` (rule R202), the block's one form of exception: ERR <- e, BUSY <- 0, PEND <- none, and
nothing else changes but the model's log of nonzero codes (rule R206). -/
def State.raise (s : State) (e : ErrCode) : State :=
  { s with err := e, busy := false, pend := none, errLog := e :: s.errLog }

/-- The host records what a read returned. -/
def State.observe (s : State) (v : Observed) : State := { s with seen := v :: s.seen }

/-- What is left of the agenda after a turn. -/
def State.setAgenda (s : State) (turns : List Turn) : State := { s with agenda := turns }

/-- Reset at any time (rules R210, R230): everything of the block's at its reset value, the pending
command abandoned, every BUF byte unspecified anew. The parameters, the host's agenda and what it has
seen are not the block's to reset, and the log of errors is monotone (log 9, log 10). -/
def State.hardReset (s : State) : State :=
  { State.resetWith s.params with
    resets := s.resets + 1, agenda := s.agenda, seen := s.seen, errLog := s.errLog }

/-- Completing the pending command by `effect`, from the latched operands (rule R203 (2)). With nothing
pending there is no command to complete (log 11). -/
def completeWith (effect : Pend → State) (s : State) : Host.Outcome State Fault Refusal :=
  match s.pend with
  | none => .fault .noCommandPending
  | some p => .next (effect p)

end Sys2Proof.Machine
end

