-- ==== Sys2Proof/Machine/BufCommand.lean ====
section
/-!
DEFINITION. The DECRYPT_BUF command (43_buffer_decrypt.md rule R180).
-/

namespace Sys2Proof.Machine

/-- The loop of rule R180 over `n` bytes: source byte k is read before destination byte k is written,
and that before source byte k + 1 is read (20_memory.md rule R71). -/
def decryptLoop (resets : Nat) (src dst : Nat) (ks : KeyState) (m : Memory) : Nat → KeyState × Memory
  | 0 => (ks, m)
  | n + 1 =>
    let r := decryptByte ks (Memory.read resets m src)
    decryptLoop resets (src + 1) (dst + 1) r.2 (Memory.write m dst r.1) n

/-- Rule R180's body, from the operands latched in `p`, its checks in the order of rule R205. -/
def decryptBufEffect (s : State) (p : Pend) : State :=
  if s.phase = .uninit then s.raise .sequence
  else if p.len = 0 then s.succeed
  else if validRange s.params.memSize p.src p.len = false then s.raise .argument
  else if validRange s.params.memSize p.dst p.len = false then s.raise .resource
  else if p.src ≠ p.dst ∧ overlap p.src p.dst p.len = true then s.raise .argument
  else
    let r := decryptLoop s.resets p.src.toNat p.dst.toNat s.keys s.buf p.len.toNat
    (((s.setKeys r.1).setBuf r.2).advance p.len.toNat).succeed

/-- DECRYPT_BUF: decrypt a run of BUF bytes and advance the stream by its length (rule R180). -/
def execDecryptBuf (s : State) : Host.Outcome State Fault Refusal :=
  completeWith (decryptBufEffect s) s

end Sys2Proof.Machine
end

