-- ==== Sys2Proof/Machine/ByteCommand.lean ====
section
/-!
DEFINITION. The DECRYPT_BYTE command (42_byte_decrypt.md rule R160).
-/

namespace Sys2Proof.Machine

/-- Rule R160's body, from the operand latched in `p`. SEQUENCE is checked before RANGE (rule R205). -/
def decryptByteEffect (s : State) (p : Pend) : State :=
  if s.phase = .uninit then s.raise .sequence
  else if inByteRange p.value = false then s.raise .range
  else
    let r := decryptByte s.keys (lowByte p.value)
    (((s.setKeys r.2).setResult (r.1.setWidth 32)).advance 1).succeed

/-- DECRYPT_BYTE: decrypt one ciphertext byte and advance the stream (rule R160). -/
def execDecryptByte (s : State) : Host.Outcome State Fault Refusal :=
  completeWith (decryptByteEffect s) s

end Sys2Proof.Machine
end

