-- ==== Sys2Proof/Machine/InitCommand.lean ====
section
/-!
DEFINITION. The INIT command (41_key_schedule.md rule R140).
-/

namespace Sys2Proof.Machine

/-- The loop of rule R140: fold `n` bytes of BUF from `base` on, at ascending addresses (rule R71). -/
def initLoop (s : State) (base : Nat) (ks : KeyState) : Nat → KeyState
  | 0 => ks
  | n + 1 => initLoop s (base + 1) (updateKeys ks (s.bufByte base)) n

/-- Rule R140's body, from the operands latched in `p`. -/
def initEffect (s : State) (p : Pend) : State :=
  if validRange s.params.memSize p.pwBase p.pwLen then
    ((s.setKeys (initLoop s p.pwBase.toNat KeyState.iv p.pwLen.toNat)).startStream).succeed
  else s.raise .argument

/-- INIT: construct a new handle from a password held in BUF (rule R140). Legal in either phase. -/
def execInit (s : State) : Host.Outcome State Fault Refusal := completeWith (initEffect s) s

end Sys2Proof.Machine
end

