-- ==== Sys2Proof/Machine/Dispatch.lean ====
section
/-!
DEFINITION. One arm per command (30_encoding.md rule R94).
-/

namespace Sys2Proof.Machine

def exec (i : Instr) (s : State) : Host.Outcome State Fault Refusal :=
  match i with
  | .init => Sys2Proof.Machine.execInit s
  | .decryptByte => Sys2Proof.Machine.execDecryptByte s
  | .decryptBuf => Sys2Proof.Machine.execDecryptBuf s

end Sys2Proof.Machine
end

