-- ==== Sys2Proof/Machine/HostPort.lean ====
section
/-!
DEFINITION. The host's moves (60_exceptions.md rule R215): register reads and writes (30_encoding.md rules
R90, R92), BUF reads and writes (rule R91), and reset.
-/

namespace Sys2Proof.Machine

/-- A register whose reads while BUSY = 1 may return any value: a free draw then, the exact value
otherwise (rule R241; log 3). -/
def State.settled (s : State) (v : Word) : Word := if s.busy then Config.busyWord s.seen.length else v

/-- What a host read of a register returns (rules R23, R28, R29, R32, R90, R241). CMD reads as 0 (rule
R92). -/
def State.readReg (s : State) : Reg → Word
  | .cmd => 0
  | .arg0 => s.arg0
  | .arg1 => s.arg1
  | .arg2 => s.arg2
  | .result => s.settled s.result
  | .status => s.statusWord
  | .key0 => s.settled s.keys.key0
  | .key1 => s.settled s.keys.key1
  | .key2 => s.settled s.keys.key2

/-- What a host read of BUF byte `a` returns: BUF[a], but a free draw inside a pending DECRYPT_BUF's
destination range (rule R241; log 3). -/
def State.readBuf (s : State) (a : Nat) : Byte :=
  match s.busy, s.pend with
  | true, some p => if p.writes a then Config.busyByte s.seen.length else s.bufByte a
  | _, _ => s.bufByte a

/-- Whether the host may write BUF byte `a` now (rule R215): BUSY = 0, or `a` outside the pending
command's ranges. -/
def State.mayWriteBuf (s : State) (a : Nat) : Bool :=
  match s.busy, s.pend with
  | true, some p => !p.touches a
  | _, _ => true

/-- A 32-bit host write to a register. CMD issues a command (rule R203), the ARG registers store (rule
R28), the read-only ones ignore it (rule R92). -/
def writeReg (s : State) (v : Word) : Reg → Host.Outcome State Fault Refusal
  | .cmd => if s.busy then .refused .commandWhileBusy else .next (s.issue v)
  | .arg0 => .next (s.setArg0 v)
  | .arg1 => .next (s.setArg1 v)
  | .arg2 => .next (s.setArg2 v)
  | .result => .next s
  | .status => .next s
  | .key0 => .next s
  | .key1 => .next s
  | .key2 => .next s

/-- A 32-bit host write; a reserved offset ignores it (rule R92). -/
def hostWrite32 (addr : Nat) (v : Word) (s : State) : Host.Outcome State Fault Refusal :=
  match wordTarget s.params addr with
  | .error r => .refused r
  | .ok none => .next s
  | .ok (some reg) => writeReg s v reg

/-- A 32-bit host read; a reserved offset reads as 0 (rule R92). -/
def hostRead32 (addr : Nat) (s : State) : Host.Outcome State Fault Refusal :=
  match wordTarget s.params addr with
  | .error r => .refused r
  | .ok none => .next (s.observe (.word 0))
  | .ok (some reg) => .next (s.observe (.word (s.readReg reg)))

/-- A one-byte host write to BUF (rules R91, R215, R240 (b)). -/
def hostWrite8 (addr : Nat) (b : Byte) (s : State) : Host.Outcome State Fault Refusal :=
  match byteTarget s.params addr with
  | .error r => .refused r
  | .ok a =>
    if s.mayWriteBuf a then .next (s.setBuf (Memory.write s.buf a b)) else .refused .pendingRangeWrite

/-- A one-byte host read of BUF (rules R91, R241). -/
def hostRead8 (addr : Nat) (s : State) : Host.Outcome State Fault Refusal :=
  match byteTarget s.params addr with
  | .error r => .refused r
  | .ok a => .next (s.observe (.byte (s.readBuf a)))

/-- One host statement. A `wait` that reaches here has read BUSY = 0 and is done (rule R99); how a `wait`
passes while BUSY = 1 is `takeTurn`'s. -/
def hostMove (m : HostMove) (s : State) : Host.Outcome State Fault Refusal :=
  match m with
  | .write32 addr v => hostWrite32 addr v s
  | .write8 addr b => hostWrite8 addr b s
  | .read32 addr => hostRead32 addr s
  | .read8 addr => hostRead8 addr s
  | .otherWidth _ _ => .refused .wrongWidth
  | .wait => .next s
  | .reset => .next s.hardReset

end Sys2Proof.Machine
end

