-- ==== Sys2Proof/Machine/Engine.lean ====
section
/-!
DEFINITION. The engine's turn (60_exceptions.md rule R203 (2)) and whose turn it is (00_scope.md rule R14).
-/

namespace Sys2Proof.Machine

/-- Completing a pending command word: decode it (rule R98) and run it, or raise ILLEGAL (rules R97,
R203). -/
def completeWord (w : Word) (s : State) : Host.Outcome State Fault Refusal :=
  match decode w with
  | .ok i => exec i s
  | .error _ => completeWith (fun _ => s.raise .illegal) s

/-- The engine's turn: its completion step is enabled exactly when BUSY = 1 (rule R203); otherwise it is
idle, and every state survives idling (rule R220; log 13). -/
def engineTurn (s : State) : Host.Outcome State Fault Refusal :=
  if s.busy then
    match s.pend with
    | none => .fault .noCommandPending
    | some p => completeWord p.cmd s
  else .next s

/-- The next turn. The agenda says who moves (log 4); with nothing left on it only the engine can. A
`wait` that reads BUSY = 1 is to be read again and changes nothing (rules R67, R99), so the move that
counts is the engine's, which weak fairness promises (rule R204; log 5). -/
def takeTurn (s : State) : Host.Outcome State Fault Refusal :=
  match s.agenda with
  | [] => engineTurn s
  | .engine :: rest => engineTurn (s.setAgenda rest)
  | .host m :: rest =>
    if m = .wait ∧ s.busy = true then engineTurn s else hostMove m (s.setAgenda rest)

/-- `s` with the command word `w` issued (rule R203 (1)) and the engine's turn next. -/
def placeCommand (s : State) (w : Word) : State := (s.issue w).setAgenda (.engine :: s.agenda)

end Sys2Proof.Machine
end

