-- ==== Sys2Proof/Machine/Step.lean ====
section
/-!
DEFINITION. One step of the block and its host, and how a command is placed to be the next one run.
-/

namespace Sys2Proof.Machine

/-- One step: the next turn. -/
def step (s : State) : Host.Outcome State Fault Refusal := Sys2Proof.Machine.takeTurn s

/-- `s` with the command of a table row issued, with ARG0 to ARG2 as they stand, so that the next step
completes it. The block fetches nothing (10_state.md rule R38): the CMD write is how a command comes to
run (log 11). Bits above `nbits` are 0; bits above 31 do not exist in a 32-bit register. -/
def State.withFetchWord (s : State) (nbits w : Nat) : State :=
  Sys2Proof.Machine.placeCommand s (BitVec.ofNat 32 (w % 2 ^ nbits))

end Sys2Proof.Machine
end

