-- ==== Sys2Proof/Safety.lean ====
section
/-!
DEFINITION. What statements about runs are said in: the invariant of the block's state, the host moves
that 60_exceptions.md rule R215 enables, and a run of DECRYPT_BYTE commands (rule R182).
-/

namespace Sys2Proof.Machine

/-- The invariant of the block: legal parameters (rule R8); BUF in canonical form and inside MEM_SIZE
(rule R34); BUSY = 1 exactly when PEND is not empty (rules R33, R37); POS has a value exactly in
POSITIONED (rule R31); RESULT[31:8] = 0 (rule R29); in UNINIT the keys and RESULT still hold their reset
value (rules R22, R25, R29); the log of errors holds no OK, and ERR, if nonzero, is its newest entry
(rule R206). -/
abbrev State.Inv (s : State) : Prop :=
  s.params.Legal ∧
  Memory.Wf s.buf ∧ (∀ c ∈ s.buf, c.1 < s.params.memSize) ∧
  (s.busy = s.pend.isSome) ∧
  (s.phase = .positioned ↔ s.pos.isSome = true) ∧
  s.result.extractLsb' 8 24 = 0 ∧
  (s.phase = .uninit → s.keys = { key0 := 0, key1 := 0, key2 := 0 } ∧ s.result = 0) ∧
  ErrCode.ok ∉ s.errLog ∧ (s.err = .ok ∨ s.errLog.head? = some s.err)

/-- BUF address `a` lies in a range the pending command uses (rule R240 (b)), said with the command
words of rule R94: the password range of an INIT, the source and destination ranges of a DECRYPT_BUF. -/
def State.InPendingRange (s : State) (a : Nat) : Prop :=
  ∃ p, s.pend = some p ∧
    ((p.cmd = 0x00000001 ∧ p.a0.toNat ≤ a ∧ a < p.a0.toNat + p.a1.toNat) ∨
     (p.cmd = 0x00000003 ∧
       ((p.a0.toNat ≤ a ∧ a < p.a0.toNat + p.a2.toNat) ∨
        (p.a1.toNat ≤ a ∧ a < p.a1.toNat + p.a2.toNat))))

/-- Platform address `addr` is a 4-aligned offset of the register space (rules R60, R64, R68). -/
def State.RegisterAddr (s : State) (addr : Nat) : Prop :=
  ∃ off, addr = s.params.blockBase + off ∧ off < s.params.bufBase ∧ off % 4 = 0

/-- Platform address `addr` is that of BUF byte `a` (rule R91). -/
def State.BufAddr (s : State) (addr a : Nat) : Prop :=
  addr = s.params.blockBase + s.params.bufBase + a ∧ a < s.params.memSize

/-- Rule R215's column "enabled when". -/
def State.Enabled (s : State) : HostMove → Prop
  | .write32 addr _ => s.RegisterAddr addr ∧ (addr = s.params.blockBase → s.busy = false)
  | .write8 addr _ => ∃ a, s.BufAddr addr a ∧ (s.busy = false ∨ ¬ s.InPendingRange a)
  | .read32 addr => s.RegisterAddr addr
  | .read8 addr => ∃ a, s.BufAddr addr a
  | .otherWidth _ _ => False
  | .wait => True
  | .reset => True

/-- The engine moves next: it is its turn on the agenda, or the host polls STATUS, or the host is done
(log 4, log 5). -/
def State.EngineNext (s : State) : Prop :=
  s.agenda = [] ∨ (∃ rest, s.agenda = .engine :: rest) ∨ (∃ rest, s.agenda = .host .wait :: rest)

/-- The state the engine's turn starts from: its entry, if it has one, taken off the agenda. -/
def State.afterTurn (s : State) : State :=
  match s.agenda with
  | .engine :: rest => s.setAgenda rest
  | _ => s

/-- The host asserts reset next. -/
def State.ResetNext (s : State) : Prop := ∃ rest, s.agenda = .host .reset :: rest

/-- The engine completes a command next, whose word is `w`. -/
def State.CompletesNext (s : State) (w : Word) : Prop :=
  s.EngineNext ∧ s.busy = true ∧ ∃ p, s.pend = some p ∧ p.cmd = w

/-- Rule R202's "Nothing else changes": what an error leaves of `s` in `t`. -/
def State.UntouchedByError (s t : State) : Prop :=
  t.params = s.params ∧ t.keys = s.keys ∧ t.arg0 = s.arg0 ∧ t.arg1 = s.arg1 ∧ t.arg2 = s.arg2 ∧
  t.result = s.result ∧ t.phase = s.phase ∧ t.pos = s.pos ∧ t.buf = s.buf ∧ t.resets = s.resets ∧
  t.agenda = s.agenda ∧ t.seen = s.seen

/-- `k` steps, stopping at the first fault or refusal. -/
def State.steps : Nat → State → Host.Outcome State Fault Refusal
  | 0, s => .next s
  | k + 1, s =>
    match step s with
    | .next t => State.steps k t
    | .fault f => .fault f
    | .refused r => .refused r

/-- The end of a run (rule R216): the host program is done and BUSY = 0. -/
def State.Done (s : State) : Prop := s.agenda = [] ∧ s.busy = false

/-- Memories agree byte for byte on the range of base `a` and length `n`. -/
def State.AgreeOn (s t : State) (a n : Nat) : Prop := ∀ k, k < n → s.bufByte (a + k) = t.bufByte (a + k)

/-- DECRYPT_BYTE commands completed one after another on the bytes `cs` (rule R182): each is issued with
the byte as its ARG0 and then completed. The results are the RESULT values in order. -/
def byteCommands (s : State) : List Byte → Host.Outcome (List Byte × State) Fault Refusal
  | [] => .next ([], s)
  | c :: cs =>
    match exec .decryptByte ((s.setArg0 (c.setWidth 32)).issue 0x00000002) with
    | .next t =>
      match byteCommands t cs with
      | .next (out, u) => .next (t.result.setWidth 8 :: out, u)
      | .fault f => .fault f
      | .refused r => .refused r
    | .fault f => .fault f
    | .refused r => .refused r

end Sys2Proof.Machine
end

