-- ==== Sys2Proof/Certificates/Slice0/Obligations.lean ====
section
/-!
DEFINITION. The statements for the provers. Each docstring says which rule of spec/ its statement
formalises or rests on.
-/

open Sys2Proof Sys2Proof.Machine

/-- Derived, R94, R97, R98. The words 0x00000001, 0x00000002 and 0x00000003 decode to INIT, DECRYPT_BYTE
and DECRYPT_BUF; the all-zero word, two reserved opcodes and two words with a nonzero reserved bit
are rejected, each under its reason. -/
def Obligations.SampleCommandWordsDecode : Prop :=
  decode 0x00000001 = .ok .init ∧ decode 0x00000002 = .ok .decryptByte ∧
  decode 0x00000003 = .ok .decryptBuf ∧ decode 0x00000000 = .error (.reservedOpcode 0x00) ∧
  decode 0x00000004 = .error (.reservedOpcode 0x04) ∧ decode 0x000000FF = .error (.reservedOpcode 0xFF) ∧
  decode 0x00000102 = .error .reservedBits ∧ decode 0x80000001 = .error .reservedBits

/-- Derived, R94, R98. For every well-formed instruction i, decode (encode i) is i. -/
def Obligations.DecodeOfEncodeIsTheInstruction : Prop :=
  ∀ i : Instr, i.wf = true → decode (encode i) = .ok i

/-- Derived, R93, R94, R97, R98. For every 32-bit word w and instruction i, decode w is i exactly when w
is encode i: no bit of the word is dropped. -/
def Obligations.DecodeAcceptsExactlyTheEncodings : Prop :=
  ∀ (w : Word) (i : Instr), decode w = .ok i ↔ w = encode i

/-- Stated, R97, R98. For every word w, read as a number: from 256 up it is illegal by its reserved
bits; otherwise 1, 2 and 3 are INIT, DECRYPT_BYTE and DECRYPT_BUF, and any other value is an illegal
opcode. A word decodes to some instruction exactly when it is legal (RSV = 0 and OP in 1, 2, 3), and
completing any other word raises ILLEGAL and changes nothing but STATUS.ERR (and ends the pending
command). -/
def Obligations.DecodeReadsOpAndRsvOnly : Prop :=
  ∀ w : Word,
    decode w =
      (if 256 ≤ w.toNat then .error .reservedBits
       else if w.toNat = 1 then .ok .init
       else if w.toNat = 2 then .ok .decryptByte
       else if w.toNat = 3 then .ok .decryptBuf
       else .error (.reservedOpcode (BitVec.ofNat 8 w.toNat))) ∧
    (LegalWord w ↔ ∃ i, decode w = .ok i) ∧
    ∀ (s : State) (p : Pend), s.pend = some p → ¬ LegalWord w →
      completeWord w s =
        .next { s with err := .illegal, busy := false, pend := none, errLog := .illegal :: s.errLog }

/-- Derived, R98, R203. When BUSY = 1, PEND holds a word that decodes to a well-formed instruction i,
and the engine moves next (its turn on the agenda, an empty agenda, or the host waiting), then step
is exec of i at that state with the engine's own entry taken off the agenda. Who moves next is the
model's agenda (logs 4 and 5). -/
def Obligations.StepRunsTheDecodedCommand : Prop :=
  ∀ (s : State) (p : Pend) (i : Instr), s.EngineNext → s.busy = true → s.pend = some p →
    decode p.cmd = .ok i → i.wf = true → step s = exec i s.afterTurn

/-- Derived, R98, R203. For every state and every 32-bit table word that decodes to an instruction i,
step of withFetchWord is exec of i on the state with that word issued: PEND holds the word with ARG0
to ARG2 as they stand, BUSY is 1, nothing else differs. Placing a command so is the model's choice
(log 11), at BUSY = 1 too, where rule R203 (1) issues none. -/
def Obligations.StepRunsAPlacedCommand : Prop :=
  ∀ (s : State) (w : Nat) (i : Instr), decodeTableWord 32 w = some i →
    step (s.withFetchWord 32 w) =
      exec i { s with busy := true, pend := some ⟨BitVec.ofNat 32 w, s.arg0, s.arg1, s.arg2⟩ }

/-- Derived, R14, R99, R220. If the agenda's head is a host move other than a wait at BUSY = 1, step is
that move with the entry taken off. If BUSY = 0, an empty agenda leaves the state as it is, an
engine turn only leaves the agenda, and a wait only leaves the agenda. The agenda is the model's
(log 4); idling as a step that changes nothing is log 13. -/
def Obligations.TurnsFollowTheAgenda : Prop :=
  (∀ (s : State) (m : HostMove) (rest : List Turn), s.agenda = .host m :: rest →
      (m = .wait → s.busy = false) → step s = hostMove m { s with agenda := rest }) ∧
  (∀ s : State, s.busy = false → s.agenda = [] → step s = .next s) ∧
  (∀ (s : State) (rest : List Turn), s.busy = false → s.agenda = .engine :: rest →
      step s = .next { s with agenda := rest }) ∧
  (∀ (s : State) (rest : List Turn), s.busy = false → s.agenda = .host .wait :: rest →
      step s = .next { s with agenda := rest })

/-- Stated, R113. CRC_TABLE[i] is the value of rule R110's loop for every byte i, and the ROM read row
by row is the built table. -/
def Obligations.RomHoldsTheBuiltTable : Prop :=
  (∀ i : Byte, crcTable i = crcEntry i) ∧ crcRom.flatten = buildCrcTable

/-- Stated, R114. Rule R114 whole: (a) the table is linear, its entry 0 is 0, and it is fixed by its
eight entries at the powers of two; (b) the mask 0x00FFFFFF changes nothing; (c) the top byte of
crc_step is that of the table entry; (d) crc_step(b, c) = crc_step(0, c ^ zext(b)); (e) the 256
entries are distinct and crc_step is injective in the byte. -/
def Obligations.CrcTableAndStepProperties : Prop :=
  (∀ a b : Byte, crcTable (a ^^^ b) = crcTable a ^^^ crcTable b) ∧ crcTable 0 = 0 ∧
  (∀ f : Byte → Word, (∀ a b, f (a ^^^ b) = f a ^^^ f b) →
    (∀ k, k < 8 → f ((1 : Byte) <<< k) = crcTable ((1 : Byte) <<< k)) → ∀ a, f a = crcTable a) ∧
  (∀ crc : Word, (crc >>> 8) &&& 0x00FFFFFF#32 = crc >>> 8) ∧
  (∀ (b : Byte) (crc : Word), (crcStep b crc).extractLsb' 24 8 =
    (crcTable (crc.extractLsb' 0 8 ^^^ b)).extractLsb' 24 8) ∧
  (∀ (b : Byte) (crc : Word), crcStep b crc = crcStep 0 (crc ^^^ b.setWidth 32)) ∧
  (∀ a b : Byte, crcTable a = crcTable b → a = b) ∧
  (∀ (a b : Byte) (crc : Word), crcStep a crc = crcStep b crc → a = b)

/-- Stated, R131. With key0' = crc_step(c, key0): key1' is (((key1 + key0' mod 256) mod 2^32) *
134775813 + 1) mod 2^32, from the new key0' and the old key1; key2' is crc_step of the top byte of
the new key1' and the old key2. The corner cases (a) to (c) and the example of the rule hold. -/
def Obligations.UpdateKeysRecurrence : Prop :=
  (∀ (ks : KeyState) (c : Byte),
    (updateKeys ks c).key0 = crcStep c ks.key0 ∧
    (updateKeys ks c).key1.toNat =
      ((ks.key1.toNat + (crcStep c ks.key0).toNat % 256) % 2 ^ 32 * 134775813 + 1) % 2 ^ 32 ∧
    (updateKeys ks c).key2 =
      crcStep (BitVec.ofNat 8 ((updateKeys ks c).key1.toNat / 2 ^ 24)) ks.key2) ∧
  updateKeys ⟨0xFFFFFFFF, 0xFFFFFFFF, 0xFFFFFFFF⟩ 0xFF = ⟨0x00FFFFFF, 0xF872FCF7, 0x9E9B6A5C⟩ ∧
  updateKeys ⟨0, 0xFFFFFFFF, 0⟩ 0x00 = ⟨0, 0xF7F77BFC, 0x23D967BF⟩ ∧
  updateKeys ⟨0, 0, 0⟩ 0x00 = ⟨0, 1, 0⟩ ∧
  updateKeys ⟨0x12345678, 0x23456789, 0x34567890⟩ 0x74 = ⟨0x09A4787D, 0xEA2E201F, 0xB0E4CE5A⟩

/-- Stated, R130. The empty password gives the IV (0x12345678, 0x23456789, 0x34567890); one more byte at
the end is one more key update; folding "ts" and "st" differ; and the password "test" gives the keys
of the rule's example. -/
def Obligations.InitKeysFoldsThePassword : Prop :=
  initKeys [] = ⟨0x12345678, 0x23456789, 0x34567890⟩ ∧
  (∀ (p : List Byte) (b : Byte), initKeys (p ++ [b]) = updateKeys (initKeys p) b) ∧
  initKeys [0x74, 0x73] ≠ initKeys [0x73, 0x74] ∧
  initKeys [0x74, 0x65, 0x73, 0x74] = ⟨0x7712F9DE, 0x485AFD7B, 0x5DED1E32⟩

/-- Stated, R150. In numbers, the mask of key2 is (k * (k xor 1) mod 2^32) / 256 mod 256 for k = key2 |
2, and the corner cases and the example of the rule hold. -/
def Obligations.KeystreamByteFormula : Prop :=
  (∀ key2 : Word, (keystreamByte key2).toNat =
    (key2.toNat ||| 2) * ((key2.toNat ||| 2) ^^^ 1) % 2 ^ 32 / 256 % 256) ∧
  keystreamByte 0x00000000 = 0x00 ∧ keystreamByte 0x00000001 = 0x00 ∧ keystreamByte 0x00000002 = 0x00 ∧
  keystreamByte 0x00000003 = 0x00 ∧ keystreamByte 0xFFFFFFFF = 0x00 ∧ keystreamByte 0x000005E8 = 0xFF ∧
  keystreamByte 0x34567890 = 0xAB

/-- Stated, R152. Rule R152 whole: (a) only key2[15:0] matters, and the 16-bit and the unbounded product
give the same mask as the 32-bit one; (b) nor does key2[0] (nor key2[1]): the mask is a function of
key2[15:2]; (c) over the 2^14 values of key2[15:2] every byte is the mask exactly 64 times; (d) the
mask a decryption uses reads key2 only. -/
def Obligations.KeystreamByteProperties : Prop :=
  (∀ key2 : Word,
    (keystreamByte key2).toNat = (key2.toNat ||| 2) * ((key2.toNat ||| 2) ^^^ 1) / 256 % 256 ∧
    (keystreamByte key2).toNat =
      (key2.toNat % 2 ^ 16 ||| 2) * ((key2.toNat % 2 ^ 16 ||| 2) ^^^ 1) % 2 ^ 16 / 256 % 256) ∧
  (∀ x y : Word, x.extractLsb' 2 14 = y.extractLsb' 2 14 → keystreamByte x = keystreamByte y) ∧
  (∀ m : Byte, ((List.range (2 ^ 14)).filter
    fun y => keystreamByte (BitVec.ofNat 32 (4 * y)) = m).length = 64) ∧
  (∀ (a b c d key2 : Word) (ct : Byte),
    (decryptByte ⟨a, b, key2⟩ ct).1 = (decryptByte ⟨c, d, key2⟩ ct).1)

/-- Stated, R151. The plaintext is the ciphertext byte XOR the mask of the old key2, and the new keys
are the key update of the old ones with that plaintext; a ciphertext byte equal to the mask gives
0x00, ciphertext 0x00 gives the mask, a mask of 0 gives the ciphertext; and the example of the rule
holds. -/
def Obligations.DecryptByteFeedsThePlaintextBack : Prop :=
  (∀ (ks : KeyState) (c : Byte), decryptByte ks c =
    (c ^^^ keystreamByte ks.key2, updateKeys ks (c ^^^ keystreamByte ks.key2))) ∧
  (∀ ks : KeyState, decryptByte ks (keystreamByte ks.key2) = (0x00, updateKeys ks 0x00)) ∧
  (∀ ks : KeyState, (decryptByte ks 0x00).1 = keystreamByte ks.key2) ∧
  (∀ (ks : KeyState) (c : Byte), keystreamByte ks.key2 = 0 → decryptByte ks c = (c, updateKeys ks c)) ∧
  decryptByte ⟨0x12345678, 0x23456789, 0x34567890⟩ 0x00 =
    (0xAB, ⟨0x1FC8B738, 0xBFE28AC6, 0xABE56B21⟩)

/-- Stated, R153. encrypt_byte(s, p) is (p XOR the mask of key2, update_keys(s, p)), and if (c, s1) =
encrypt_byte(s, p) then decrypt_byte(s, c) = (p, s1). -/
def Obligations.DecryptInvertsEncrypt : Prop :=
  ∀ (ks : KeyState) (p : Byte),
    encryptByte ks p = (p ^^^ keystreamByte ks.key2, updateKeys ks p) ∧
    ∀ (c : Byte) (ks' : KeyState), encryptByte ks p = (c, ks') → decryptByte ks c = (p, ks')

/-- Derived, R153, R170. For every key state and plaintext sequence, decrypt_buffer of the sequence
encrypted byte by byte returns the plaintext and ends in the encryption's key state. -/
def Obligations.DecryptBufferInvertsEncryptBuffer : Prop :=
  ∀ (ks : KeyState) (ps : List Byte),
    decryptBuffer ks (encryptBuffer ks ps).1 = (ps, (encryptBuffer ks ps).2)

/-- Stated, R170. On no bytes it returns no bytes and the state unchanged; on B followed by one byte c
it returns the output for B followed by the plaintext of c at the state B left, and that
decryption's state. The example of the rule holds. -/
def Obligations.DecryptBufferRunsInOrder : Prop :=
  (∀ ks : KeyState, decryptBuffer ks [] = ([], ks)) ∧
  (∀ (ks : KeyState) (cs : List Byte) (c : Byte), decryptBuffer ks (cs ++ [c]) =
    ((decryptBuffer ks cs).1 ++ [(decryptByte (decryptBuffer ks cs).2 c).1],
      (decryptByte (decryptBuffer ks cs).2 c).2)) ∧
  decryptBuffer (initKeys [0x74, 0x65, 0x73, 0x74])
      [0x97, 0xD3, 0xA1, 0x85, 0xE1, 0x71, 0xD2, 0xC3, 0xC8, 0xA0, 0x43, 0x48] =
    ([0x48, 0x65, 0x6C, 0x6C, 0x6F, 0x2C, 0x20, 0x5A, 0x49, 0x50, 0x21, 0x0A],
      ⟨0x04C9DBB1, 0x5C1A71BE, 0x120D429A⟩)

/-- Stated, R171. Rule R171 whole: (a) the output is as long as the input; (b) one byte is decrypt_byte;
(c) decrypting B1 ++ B2 is decrypting B1 and then B2 from the state B1 left, so that the second
output is the whole output from index len(B1) on; (d) empty input changes nothing; (e) the result
depends only on the state and the bytes. -/
def Obligations.BufferDecryptorProperties : Prop :=
  (∀ (ks : KeyState) (cs : List Byte), (decryptBuffer ks cs).1.length = cs.length) ∧
  (∀ (ks : KeyState) (c : Byte),
    decryptBuffer ks [c] = ([(decryptByte ks c).1], (decryptByte ks c).2)) ∧
  (∀ (ks : KeyState) (b1 b2 : List Byte),
    decryptBuffer ks (b1 ++ b2) =
      ((decryptBuffer ks b1).1 ++ (decryptBuffer (decryptBuffer ks b1).2 b2).1,
        (decryptBuffer (decryptBuffer ks b1).2 b2).2) ∧
    (decryptBuffer (decryptBuffer ks b1).2 b2).1 = (decryptBuffer ks (b1 ++ b2)).1.drop b1.length) ∧
  (∀ ks : KeyState, decryptBuffer ks [] = ([], ks)) ∧
  (∀ (ks ks' : KeyState) (cs cs' : List Byte), ks = ks' → cs = cs' →
    decryptBuffer ks cs = decryptBuffer ks' cs')

/-- Stated, R140, R141. With latched base a and length n: if n = 0 or a + n <= MEM_SIZE, INIT in either
phase gives exactly the state with the keys init_keys(BUF[a .. a+n-1]), PHASE = POSITIONED, POS = 0,
ERR = OK, BUSY = 0, PEND empty and everything else unchanged (RESULT, ARG0 to ARG2 and every byte of
BUF among it). Otherwise it raises ARGUMENT and nothing else changes. If BUF[b .. b+L-1] holds a
password P with valid(b, L), the keys are init_keys(P). -/
def Obligations.InitConstructsAHandle : Prop :=
  ∀ (s : State) (p : Pend), s.pend = some p →
    (p.a1 = 0 ∨ p.a0.toNat + p.a1.toNat ≤ s.params.memSize →
      exec .init s = .next { s with
        keys := initKeys (s.bufBytes p.a0.toNat p.a1.toNat)
        phase := .positioned
        pos := some 0
        err := .ok
        busy := false
        pend := none } ∧
      ∀ P : List Byte, P.length = p.a1.toNat →
        (∀ k, k < P.length → s.bufByte (p.a0.toNat + k) = P.getD k 0) →
        ∃ t, exec .init s = .next t ∧ t.keys = initKeys P ∧ t.phase = .positioned ∧ t.pos = some 0) ∧
    (p.a1 ≠ 0 → s.params.memSize < p.a0.toNat + p.a1.toNat →
      exec .init s = .next { s with
        err := .argument
        busy := false
        pend := none
        errLog := .argument :: s.errLog })

/-- Stated, R160, R96. In POSITIONED with a latched value below 256, DECRYPT_BYTE gives exactly the
state with RESULT the zero-extended plaintext of that byte, the keys updated with the plaintext, POS
one more, ERR = OK, BUSY = 0, PEND empty and everything else unchanged (all of BUF among it). In
UNINIT it raises SEQUENCE whatever the value, and in POSITIONED with a value of 256 or more (bits
[31:8] not 0) RANGE; on either error nothing else changes. -/
def Obligations.DecryptByteDecryptsOneByte : Prop :=
  ∀ (s : State) (p : Pend), s.pend = some p →
    (s.phase = .uninit →
      exec .decryptByte s = .next { s with
        err := .sequence, busy := false, pend := none, errLog := .sequence :: s.errLog }) ∧
    (s.phase = .positioned → 256 ≤ p.a0.toNat →
      exec .decryptByte s = .next { s with
        err := .range, busy := false, pend := none, errLog := .range :: s.errLog }) ∧
    (s.phase = .positioned → p.a0.toNat < 256 →
      exec .decryptByte s = .next { s with
        keys := (decryptByte s.keys (BitVec.ofNat 8 p.a0.toNat)).2
        result := (decryptByte s.keys (BitVec.ofNat 8 p.a0.toNat)).1.setWidth 32
        pos := s.pos.map (· + 1)
        err := .ok
        busy := false
        pend := none }) ∧
    (p.a0.extractLsb' 8 24 = 0 ↔ p.a0.toNat < 256)

/-- Stated, R181. In POSITIONED with n > 0, both ranges inside BUF, and equal or disjoint: DECRYPT_BUF
completes; afterwards BUF[dst .. dst+n-1] is the output and the keys are the state of decrypt_buffer
on the bytes BUF[src .. src+n-1] before it; every BUF byte outside [dst, dst+n) reads as before; POS
is n more, ERR = OK, BUSY = 0, PEND empty, and every other field (RESULT, PHASE and ARG0 to ARG2
among them) is unchanged. POS, ERR and the unchanged fields are rule R180's, whose n = 0 exit and
errors are DecryptBufChecksInOrder. The loop that reads and writes BUF byte by byte refines the pure
function. -/
def Obligations.DecryptBufDecryptsTheRange : Prop :=
  ∀ (s : State) (p : Pend), s.pend = some p → s.phase = .positioned → p.a2 ≠ 0 →
    p.a0.toNat + p.a2.toNat ≤ s.params.memSize → p.a1.toNat + p.a2.toNat ≤ s.params.memSize →
    (p.a0 = p.a1 ∨ p.a0.toNat + p.a2.toNat ≤ p.a1.toNat ∨ p.a1.toNat + p.a2.toNat ≤ p.a0.toNat) →
    ∃ t, exec .decryptBuf s = .next t ∧
      t.bufBytes p.a1.toNat p.a2.toNat =
        (decryptBuffer s.keys (s.bufBytes p.a0.toNat p.a2.toNat)).1 ∧
      t.keys = (decryptBuffer s.keys (s.bufBytes p.a0.toNat p.a2.toNat)).2 ∧
      (∀ a, a < p.a1.toNat ∨ p.a1.toNat + p.a2.toNat ≤ a → t.bufByte a = s.bufByte a) ∧
      t = { s with
        keys := t.keys
        buf := t.buf
        pos := s.pos.map (· + p.a2.toNat)
        err := .ok
        busy := false
        pend := none }

/-- Derived, R180, R205. In UNINIT, SEQUENCE even for n = 0. In POSITIONED: n = 0 succeeds at any
addresses and changes nothing but ERR, BUSY and PEND; otherwise a source range past BUF raises
ARGUMENT; then a destination range past BUF raises RESOURCE; then two different ranges that share a
byte raise ARGUMENT. On each error nothing else changes. -/
def Obligations.DecryptBufChecksInOrder : Prop :=
  ∀ (s : State) (p : Pend), s.pend = some p →
    let raised := fun e => Host.Outcome.next (φ := Fault) (ρ := Refusal)
      { s with err := e, busy := false, pend := none, errLog := e :: s.errLog }
    (s.phase = .uninit → exec .decryptBuf s = raised .sequence) ∧
    (s.phase = .positioned → p.a2 = 0 →
      exec .decryptBuf s = .next { s with err := .ok, busy := false, pend := none }) ∧
    (s.phase = .positioned → p.a2 ≠ 0 → s.params.memSize < p.a0.toNat + p.a2.toNat →
      exec .decryptBuf s = raised .argument) ∧
    (s.phase = .positioned → p.a2 ≠ 0 → p.a0.toNat + p.a2.toNat ≤ s.params.memSize →
      s.params.memSize < p.a1.toNat + p.a2.toNat → exec .decryptBuf s = raised .resource) ∧
    (s.phase = .positioned → p.a2 ≠ 0 → p.a0.toNat + p.a2.toNat ≤ s.params.memSize →
      p.a1.toNat + p.a2.toNat ≤ s.params.memSize → p.a0 ≠ p.a1 →
      p.a0.toNat < p.a1.toNat + p.a2.toNat → p.a1.toNat < p.a0.toNat + p.a2.toNat →
      exec .decryptBuf s = raised .argument)

/-- Stated, R205, R201. Completing any pending word always gives a next state, and its ERR is: ILLEGAL
for an illegal word; for INIT, ARGUMENT if n > 0 and a + n > MEM_SIZE, else OK; for the decrypt
commands SEQUENCE in UNINIT; then for DECRYPT_BYTE RANGE if the value is 256 or more, else OK; for
DECRYPT_BUF OK if n = 0, then ARGUMENT (source range), RESOURCE (destination range), ARGUMENT
(partial overlap), else OK. -/
def Obligations.OneErrorInPriorityOrder : Prop :=
  ∀ (s : State) (p : Pend), s.pend = some p → ∃ t, completeWord p.cmd s = .next t ∧
    t.err =
      if 256 ≤ p.cmd.toNat ∨ p.cmd.toNat = 0 ∨ 4 ≤ p.cmd.toNat then .illegal
      else if p.cmd.toNat = 1 then
        (if 0 < p.a1.toNat ∧ s.params.memSize < p.a0.toNat + p.a1.toNat then .argument else .ok)
      else if s.phase = .uninit then .sequence
      else if p.cmd.toNat = 2 then (if 256 ≤ p.a0.toNat then .range else .ok)
      else if p.a2.toNat = 0 then .ok
      else if s.params.memSize < p.a0.toNat + p.a2.toNat then .argument
      else if s.params.memSize < p.a1.toNat + p.a2.toNat then .resource
      else if p.a0 ≠ p.a1 ∧ p.a0.toNat < p.a1.toNat + p.a2.toNat ∧
          p.a1.toNat < p.a0.toNat + p.a2.toNat then .argument
      else .ok

/-- Stated, R202. If completing the pending word ends with ERR nonzero, then BUSY = 0, PEND is empty,
and the keys, RESULT, PHASE, POS, BUF, ARG0 to ARG2, and all else but the model's log of errors are
as before. -/
def Obligations.ErrorsArePrecise : Prop :=
  ∀ (s t : State) (p : Pend), s.pend = some p → completeWord p.cmd s = .next t → t.err ≠ .ok →
    t.busy = false ∧ t.pend = none ∧ s.UntouchedByError t

/-- Stated, R206. What a completion does depends on no earlier ERR: changing ERR before it does not
change the state it gives. After a completion that raised an error, issuing the same word with the
same operands again completes with the same error. The model's log gains exactly the nonzero code
written. -/
def Obligations.ErrorsDoNotPersist : Prop :=
  ∀ (s t : State) (p : Pend), s.pend = some p → completeWord p.cmd s = .next t →
    (∀ e : ErrCode, completeWord p.cmd { s with err := e } = .next t) ∧
    (t.err ≠ .ok → ∃ u, completeWord p.cmd { t with busy := true, pend := some p } = .next u ∧
      u.err = t.err) ∧
    t.errLog = if t.err = .ok then s.errLog else t.err :: s.errLog

/-- Derived, R203, R204. With BUSY = 1 and a command in PEND: whenever the engine moves next, step gives
a next state with BUSY = 0 and PEND empty; and any host move other than reset that is performed
leaves BUSY = 1 and PEND as they are. When the engine moves next is the agenda's (logs 4 and 5), so
the rule's fairness assumption is not part of this. -/
def Obligations.IssuedCommandsComplete : Prop :=
  (∀ s : State, s.busy = true → s.pend.isSome = true → s.EngineNext →
    ∃ t, step s = .next t ∧ t.busy = false ∧ t.pend = none) ∧
  (∀ (s t : State) (m : HostMove), s.busy = true → m ≠ .reset → hostMove m s = .next t →
    t.busy = true ∧ t.pend = s.pend)

/-- Derived, R203, R204. From any state with BUSY = 1 and a command in PEND, with no reset on the
agenda, if the machine can run as many steps as the agenda is long and one more, then there is a k,
at most the length of the agenda, such that after each of 0 to k steps BUSY = 1 and PEND still holds
that command, and after k + 1 steps BUSY = 0 and PEND is empty: step k + 1 completes the command and
no step before it does. It may be the step after the agenda is used up (k = its length). This holds
for every interleaving the agenda can express (log 4); weak fairness is that the agenda is finite
(log 5). -/
def Obligations.CommandCompletesWithinTheAgenda : Prop :=
  ∀ s t : State, s.busy = true → s.pend.isSome = true → Turn.host .reset ∉ s.agenda →
    State.steps (s.agenda.length + 1) s = .next t →
    ∃ (k : Nat) (v : State), k ≤ s.agenda.length ∧
      (∀ j, j ≤ k → ∃ u, State.steps j s = .next u ∧ u.busy = true ∧ u.pend = s.pend) ∧
      State.steps (k + 1) s = .next v ∧ v.busy = false ∧ v.pend = none

/-- Derived, R28, R33, R203. For every state with BUSY = 0 (and a register space at the legal BUF_BASE),
a 32-bit host write of w to offset 0x00 gives exactly the state with BUSY = 1 and PEND = (w, ARG0,
ARG1, ARG2); nothing else changes at issue. -/
def Obligations.IssueLatchesTheOperands : Prop :=
  ∀ (s : State) (w : Word), s.params.Legal → s.busy = false →
    hostMove (.write32 s.params.blockBase w) s =
      .next { s with busy := true, pend := some ⟨w, s.arg0, s.arg1, s.arg2⟩ }

/-- Derived, R28, R95. Changing ARG0 to ARG2 before a command completes changes the state it gives in
ARG0 to ARG2 only. INIT ignores the latched third operand, DECRYPT_BYTE the second and the third. -/
def Obligations.ArgWritesDoNotReachAnIssuedCommand : Prop :=
  (∀ (i : Instr) (s t : State) (x y z : Word), exec i s = .next t →
    exec i { s with arg0 := x, arg1 := y, arg2 := z } =
      .next { t with arg0 := x, arg1 := y, arg2 := z }) ∧
  (∀ (s : State) (p : Pend) (z : Word), s.pend = some p →
    exec .init { s with pend := some { p with a2 := z } } = exec .init s) ∧
  (∀ (s : State) (p : Pend) (y z : Word), s.pend = some p →
    exec .decryptByte { s with pend := some { p with a1 := y, a2 := z } } = exec .decryptByte s)

/-- Stated, R32, R200. STATUS read as a number is BUSY in bit 0, PHASE in bit 1 and ERR in bits [11:8],
every other bit 0; the codes of ERR are 0 to 5 for OK, RANGE, ARGUMENT, RESOURCE, SEQUENCE and
ILLEGAL; after reset it is 0; a host write to STATUS changes nothing. -/
def Obligations.StatusWordLayout : Prop :=
  (∀ s : State, s.statusWord.toNat =
    (if s.busy then 1 else 0) + (if s.phase = .positioned then 2 else 0) + 256 * s.err.code.toNat) ∧
  (ErrCode.ok.code = 0 ∧ ErrCode.range.code = 1 ∧ ErrCode.argument.code = 2 ∧
    ErrCode.resource.code = 3 ∧ ErrCode.sequence.code = 4 ∧ ErrCode.illegal.code = 5 ∧
    ∀ e : ErrCode, e.code.toNat ≤ 5) ∧
  (∀ p : Params, (State.resetWith p).statusWord = 0) ∧
  (∀ (s : State) (v : Word), s.params.Legal →
    hostMove (.write32 (s.params.blockBase + 0x14) v) s = .next s)

/-- Derived, R23, R90, R92. For legal parameters and BUSY = 0: a read at offset 0x00 returns 0 (CMD),
0x04 ARG0, 0x08 ARG1, 0x0C ARG2, 0x10 RESULT, 0x14 STATUS, 0x18 KEY0, 0x1C KEY1, 0x20 KEY2, and any
other 4-aligned offset below BUF_BASE (reserved) 0; the state changes only by the host's record of
what it saw. -/
def Obligations.IdleRegisterReads : Prop :=
  ∀ s : State, s.params.Legal → s.busy = false →
    let readAt := fun off => hostMove (.read32 (s.params.blockBase + off)) s
    let returns := fun v => Host.Outcome.next (φ := Fault) (ρ := Refusal)
      { s with seen := .word v :: s.seen }
    readAt 0x00 = returns 0 ∧ readAt 0x04 = returns s.arg0 ∧ readAt 0x08 = returns s.arg1 ∧
    readAt 0x0C = returns s.arg2 ∧ readAt 0x10 = returns s.result ∧
    readAt 0x14 = returns s.statusWord ∧ readAt 0x18 = returns s.keys.key0 ∧
    readAt 0x1C = returns s.keys.key1 ∧ readAt 0x20 = returns s.keys.key2 ∧
    ∀ off, 0x24 ≤ off → off < s.params.bufBase → off % 4 = 0 → readAt off = returns 0

/-- Derived, R92, R241. For legal parameters and BUSY = 1: reads of STATUS and ARG0 to ARG2 return their
exact current values; CMD (0x00) and every 4-aligned reserved offset (0x24 to BUF_BASE - 1) read 0;
a read of a BUF byte outside a pending DECRYPT_BUF's destination range (any byte, if the pending
word is no DECRYPT_BUF) returns that byte; reads of RESULT and the key registers, and of bytes
inside that range, return some value and change only the host's record. What that value is stays
free (log 3). -/
def Obligations.BusyReads : Prop :=
  ∀ (s : State) (p : Pend), s.params.Legal → s.busy = true → s.pend = some p →
    let readAt := fun off => hostMove (.read32 (s.params.blockBase + off)) s
    let returns := fun v => Host.Outcome.next (φ := Fault) (ρ := Refusal) { s with seen := v :: s.seen }
    readAt 0x14 = returns (.word s.statusWord) ∧ readAt 0x04 = returns (.word s.arg0) ∧
    readAt 0x08 = returns (.word s.arg1) ∧ readAt 0x0C = returns (.word s.arg2) ∧
    readAt 0x00 = returns (.word 0) ∧
    (∀ off, 0x24 ≤ off → off < s.params.bufBase → off % 4 = 0 → readAt off = returns (.word 0)) ∧
    (∀ off, off = 0x10 ∨ off = 0x18 ∨ off = 0x1C ∨ off = 0x20 → ∃ v, readAt off = returns (.word v)) ∧
    (∀ a, a < s.params.memSize →
      let read := hostMove (.read8 (s.params.blockBase + s.params.bufBase + a)) s
      (∃ b, read = returns (.byte b)) ∧
      (p.cmd ≠ 0x00000003 ∨ a < p.a1.toNat ∨ p.a1.toNat + p.a2.toNat ≤ a →
        read = returns (.byte (s.bufByte a))))

/-- Derived, R28, R215. For legal parameters, in every state, a 32-bit write at offset 0x04, 0x08 or
0x0C gives exactly the state with ARG0, ARG1 or ARG2 the value written. -/
def Obligations.ArgWritesStore : Prop :=
  ∀ (s : State) (v : Word), s.params.Legal →
    hostMove (.write32 (s.params.blockBase + 0x04) v) s = .next { s with arg0 := v } ∧
    hostMove (.write32 (s.params.blockBase + 0x08) v) s = .next { s with arg1 := v } ∧
    hostMove (.write32 (s.params.blockBase + 0x0C) v) s = .next { s with arg2 := v }

/-- Derived, R92, R215. For legal parameters, in every state, a 32-bit write at a 4-aligned offset from
0x10 up to BUF_BASE - 1 gives the state unchanged: RESULT (0x10), STATUS (0x14), KEY0 to KEY2 (0x18
to 0x20) and every reserved offset (0x24 up). -/
def Obligations.ReadOnlyWritesAreIgnored : Prop :=
  ∀ (s : State) (v : Word) (off : Nat), s.params.Legal → 0x10 ≤ off → off < s.params.bufBase →
    off % 4 = 0 → hostMove (.write32 (s.params.blockBase + off) v) s = .next s

/-- Stated, R91. For a < MEM_SIZE and BUSY = 0: a one-byte write at offset BUF_BASE + a completes,
afterwards BUF[a] is the byte written, every other BUF byte reads as before and no other field
changes; a one-byte read there returns BUF[a] and changes only the host's record. -/
def Obligations.BufWindowReadsWhatWasWritten : Prop :=
  ∀ (s : State) (a : Nat) (b : Byte), s.busy = false → a < s.params.memSize →
    (∃ t, hostMove (.write8 (s.params.blockBase + s.params.bufBase + a) b) s = .next t ∧
      t.bufByte a = b ∧ (∀ x, x ≠ a → t.bufByte x = s.bufByte x) ∧ t = { s with buf := t.buf }) ∧
    hostMove (.read8 (s.params.blockBase + s.params.bufBase + a)) s =
      .next { s with seen := .byte (s.bufByte a) :: s.seen }

/-- Derived, R67. If a 32-bit or one-byte read at any address is performed in any state, the state it
gives is the old one with one value added to what the host has seen. -/
def Obligations.ReadsHaveNoSideEffect : Prop :=
  ∀ (s t : State) (m : HostMove), (∃ addr, m = .read32 addr ∨ m = .read8 addr) →
    hostMove m s = .next t → ∃ v, t = { s with seen := v :: s.seen }

/-- Derived, R215, R240. In every state, a host move gives a next state exactly when the column "enabled
when" of rule R215 holds: a register access at a 4-aligned offset of the register space (and BUSY =
0 if it writes CMD); a one-byte access to a BUF byte a < MEM_SIZE (and, if it writes, BUSY = 0 or a
outside the pending command's ranges); wait and reset always; any other width never. No host move
faults. -/
def Obligations.HostMovesAreExactlyThoseOfTheTable : Prop :=
  ∀ (s : State) (m : HostMove),
    ((∃ t, hostMove m s = .next t) ↔ s.Enabled m) ∧ ∀ f, hostMove m s ≠ .fault f

/-- Derived, R62, R64, R65, R68. Every 32-bit and one-byte access below BLOCK_BASE, or at and past the
end of the BUF window, is refused as outside the window; a 32-bit access in the BUF window and a
one-byte access in the register space as of the wrong width; a 32-bit access at an offset of the
register space that is no multiple of 4 as misaligned. An access of any other width is refused as of
the wrong width at every address, inside the window or not. That an access below BLOCK_BASE or past
BUF has no move is the model's inference from rule R68 (log 6, DEDUCED); the names of the refusals,
and which one an access gets when several apply, are the model's choice (log 6). -/
def Obligations.OutsideAccessesAreRefused : Prop :=
  ∀ (s : State) (addr bits : Nat) (v : Word) (b : Byte),
    let all := fun r => hostMove (.write32 addr v) s = .refused r ∧ hostMove (.read32 addr) s = .refused r ∧
      hostMove (.write8 addr b) s = .refused r ∧ hostMove (.read8 addr) s = .refused r
    (addr < s.params.blockBase → all .outsideWindow) ∧
    (s.params.blockBase + s.params.bufBase + s.params.memSize ≤ addr → all .outsideWindow) ∧
    (s.params.blockBase + s.params.bufBase ≤ addr →
      addr < s.params.blockBase + s.params.bufBase + s.params.memSize →
      hostMove (.write32 addr v) s = .refused .wrongWidth ∧
      hostMove (.read32 addr) s = .refused .wrongWidth) ∧
    (0 < s.params.memSize → s.params.blockBase ≤ addr → addr < s.params.blockBase + s.params.bufBase →
      hostMove (.write8 addr b) s = .refused .wrongWidth ∧
      hostMove (.read8 addr) s = .refused .wrongWidth ∧
      ((addr - s.params.blockBase) % 4 ≠ 0 →
        hostMove (.write32 addr v) s = .refused .misaligned ∧
        hostMove (.read32 addr) s = .refused .misaligned)) ∧
    hostMove (.otherWidth bits addr) s = .refused .wrongWidth

/-- Derived, R215, R240. For legal parameters and BUSY = 1, a 32-bit write to CMD is refused by name,
and a one-byte write to BUF byte a < MEM_SIZE inside a range the pending command uses is refused by
name; outside those ranges it stores the byte. The names of the refusals are the model's, and the
ranges are those of the latched word whether or not it will succeed (log 7). -/
def Obligations.BrokenHostDutiesAreRefused : Prop :=
  ∀ (s : State) (w : Word) (a : Nat) (b : Byte), s.params.Legal → s.busy = true →
    hostMove (.write32 s.params.blockBase w) s = .refused .commandWhileBusy ∧
    (a < s.params.memSize → s.InPendingRange a →
      hostMove (.write8 (s.params.blockBase + s.params.bufBase + a) b) s = .refused .pendingRangeWrite) ∧
    (a < s.params.memSize → ¬ s.InPendingRange a →
      ∃ t, hostMove (.write8 (s.params.blockBase + s.params.bufBase + a) b) s = .next t ∧
        t.bufByte a = b ∧ (∀ x, x ≠ a → t.bufByte x = s.bufByte x) ∧ t = { s with buf := t.buf })

/-- Derived, R210, R230. From every state, a reset gives the keys, ARG0 to ARG2, RESULT and STATUS 0
(BUSY 0, UNINIT, OK), PEND empty, POS without value, the parameters as they were, and every BUF byte
the free value of the new reset, whatever it held. The free value by reset count is the model's
choice (log 2); so is that the count goes up by one and the host's agenda and what it has seen stay
(log 9), and that the log of errors stays (log 10). -/
def Obligations.ResetSetsEveryRegister : Prop :=
  ∀ s : State, ∃ t, hostMove .reset s = .next t ∧
    t = { params := s.params, keys := ⟨0, 0, 0⟩, arg0 := 0, arg1 := 0, arg2 := 0, result := 0,
          busy := false, phase := .uninit, err := .ok, pend := none, pos := none, buf := t.buf,
          resets := s.resets + 1, agenda := s.agenda, seen := s.seen, errLog := s.errLog } ∧
    t.statusWord = 0 ∧ ∀ a, t.bufByte a = Config.unwrittenByte (s.resets + 1) a

/-- Derived, R25, R230. For every legal choice of the parameters, the state after power-on reset meets
the invariant, and the parameters State.reset takes (log 1) are legal. -/
def Obligations.ResetMeetsTheInvariant : Prop :=
  (∀ p : Params, p.Legal → (State.resetWith p).Inv) ∧ State.reset.Inv

/-- Derived, R22, R25, R29, R31, R33, R34, R37, R206. From every state that meets the invariant (legal
parameters; BUF canonical and inside MEM_SIZE; BUSY = 1 exactly when PEND is not empty; POS has a
value exactly in POSITIONED; RESULT[31:8] = 0; in UNINIT keys and RESULT are 0; the log of errors
holds no OK and its newest entry is a nonzero ERR), a step that gives a next state gives one that
meets it. -/
def Obligations.StepKeepsTheInvariant : Prop :=
  ∀ s t : State, s.Inv → step s = .next t → t.Inv

/-- Derived, R202, R204, R215, R220. From every state that meets the invariant, a step never faults; it
is refused only where the head of the agenda is a host move that the table of rule R215 does not
enable. In particular no command is ever refused. -/
def Obligations.OnlyDisabledHostMovesStopARun : Prop :=
  ∀ s : State, s.Inv → (∀ f, step s ≠ .fault f) ∧
    ∀ r, step s = .refused r → ∃ m rest, s.agenda = .host m :: rest ∧ ¬ s.Enabled m

/-- Derived, R22, R230. If a step changes KEY0, KEY1 or KEY2, then either the host asserted reset, or
the engine completed an INIT, a DECRYPT_BYTE or a DECRYPT_BUF with ERR = OK. -/
def Obligations.OnlyCompletionsAndResetWriteTheKeys : Prop :=
  ∀ s t : State, step s = .next t → t.keys ≠ s.keys →
    s.ResetNext ∨ (t.err = .ok ∧ (s.CompletesNext 0x00000001 ∨ s.CompletesNext 0x00000002 ∨
      s.CompletesNext 0x00000003))

/-- Derived, R29, R230. If a step changes RESULT, then either the host asserted reset and RESULT is 0,
or the engine completed a DECRYPT_BYTE with ERR = OK and RESULT[31:8] = 0. -/
def Obligations.OnlyDecryptByteAndResetWriteResult : Prop :=
  ∀ s t : State, step s = .next t → t.result ≠ s.result →
    (s.ResetNext ∧ t.result = 0) ∨
    (t.err = .ok ∧ s.CompletesNext 0x00000002 ∧ t.result.extractLsb' 8 24 = 0)

/-- Derived, R30, R230. If a step changes PHASE, then either the host asserted reset and PHASE is
UNINIT, or the engine completed an INIT with ERR = OK and PHASE is POSITIONED: no command returns
the block from POSITIONED to UNINIT. -/
def Obligations.OnlyInitAndResetWritePhase : Prop :=
  ∀ s t : State, step s = .next t → t.phase ≠ s.phase →
    (s.ResetNext ∧ t.phase = .uninit) ∨
    (t.err = .ok ∧ s.CompletesNext 0x00000001 ∧ t.phase = .positioned)

/-- Derived, R34, R70, R230. If some BUF byte reads differently after a step, then either the host
asserted reset, or the host wrote that very byte, or the engine completed a DECRYPT_BUF with ERR =
OK and the byte lies in its destination range. An idle engine, INIT and DECRYPT_BYTE change no byte. -/
def Obligations.BufChangesOnlyByHostOrDecryptBuf : Prop :=
  ∀ (s t : State) (a : Nat), step s = .next t → t.bufByte a ≠ s.bufByte a →
    s.ResetNext ∨
    (∃ b rest, s.agenda = .host (.write8 (s.params.blockBase + s.params.bufBase + a) b) :: rest) ∨
    (t.err = .ok ∧ s.CompletesNext 0x00000003 ∧
      ∃ p, s.pend = some p ∧ p.a1.toNat ≤ a ∧ a < p.a1.toNat + p.a2.toNat)

/-- Derived, R20, R28, R33, R75. If a step without reset changes ARG0, ARG1 or ARG2, the host wrote that
register and it holds the value written. If a step without reset from BUSY = 0 sets BUSY or changes
PEND, the host wrote CMD, BUSY is 1, and PEND holds that word and the three ARG values; if it
changes PEND from BUSY = 1, the engine completed and PEND is empty. A write to BUF never changes a
pending command. -/
def Obligations.ArgAndPendChangeOnlyByTheirWriters : Prop :=
  ∀ s t : State, step s = .next t → ¬ s.ResetNext →
    (t.arg0 ≠ s.arg0 → ∃ rest, s.agenda = .host (.write32 (s.params.blockBase + 0x04) t.arg0) :: rest) ∧
    (t.arg1 ≠ s.arg1 → ∃ rest, s.agenda = .host (.write32 (s.params.blockBase + 0x08) t.arg1) :: rest) ∧
    (t.arg2 ≠ s.arg2 → ∃ rest, s.agenda = .host (.write32 (s.params.blockBase + 0x0C) t.arg2) :: rest) ∧
    (s.busy = false → t.busy = true ∨ t.pend ≠ s.pend → ∃ w rest,
      s.agenda = .host (.write32 s.params.blockBase w) :: rest ∧ t.busy = true ∧
      t.pend = some ⟨w, s.arg0, s.arg1, s.arg2⟩) ∧
    (s.busy = true → t.pend ≠ s.pend → s.EngineNext ∧ t.pend = none ∧ t.busy = false)

/-- Derived, R8. If a step gives a next state, its MEM_SIZE, BUF_BASE and BLOCK_BASE are those before
it. -/
def Obligations.ParametersNeverChange : Prop :=
  ∀ s t : State, step s = .next t → t.params = s.params

/-- Derived, R60, R61, R140. Two states with the same pending INIT and the same MEM_SIZE whose BUF bytes
agree on the password range get the same keys, ERR and PHASE of POSITIONED from a valid range,
whatever else they hold: old keys, phase, registers, other bytes. -/
def Obligations.InitReadsOnlyThePasswordRange : Prop :=
  ∀ (s t : State) (p : Pend), s.pend = some p → t.pend = some p →
    s.params.memSize = t.params.memSize →
    (p.a1 = 0 ∨ p.a0.toNat + p.a1.toNat ≤ s.params.memSize) →
    s.AgreeOn t p.a0.toNat p.a1.toNat →
    ∃ s' t', exec .init s = .next s' ∧ exec .init t = .next t' ∧ s'.keys = t'.keys ∧
      s'.err = .ok ∧ t'.err = .ok ∧ s'.phase = .positioned ∧ t'.phase = .positioned

/-- Derived, R60, R160. Replacing BUF, the reset count that selects its unwritten bytes, and the
parameters before a DECRYPT_BYTE changes the state it gives in those fields only. -/
def Obligations.DecryptByteTouchesNoMemory : Prop :=
  ∀ (s t : State) (m : Memory) (r : Nat) (q : Params), exec .decryptByte s = .next t →
    exec .decryptByte { s with buf := m, resets := r, params := q } =
      .next { t with buf := m, resets := r, params := q }

/-- Derived, R61, R180, R181. Two states with the same pending DECRYPT_BUF, keys and MEM_SIZE, both
POSITIONED, whose BUF bytes agree on the source range get the same keys and the same bytes in the
destination range, for ranges that are valid and equal or disjoint. -/
def Obligations.DecryptBufReadsOnlyTheSourceRange : Prop :=
  ∀ (s t : State) (p : Pend), s.pend = some p → t.pend = some p → s.keys = t.keys →
    s.params.memSize = t.params.memSize → s.phase = .positioned → t.phase = .positioned →
    p.a0.toNat + p.a2.toNat ≤ s.params.memSize → p.a1.toNat + p.a2.toNat ≤ s.params.memSize →
    (p.a0 = p.a1 ∨ p.a0.toNat + p.a2.toNat ≤ p.a1.toNat ∨ p.a1.toNat + p.a2.toNat ≤ p.a0.toNat) →
    s.AgreeOn t p.a0.toNat p.a2.toNat →
    ∃ s' t', exec .decryptBuf s = .next s' ∧ exec .decryptBuf t = .next t' ∧ s'.keys = t'.keys ∧
      s'.AgreeOn t' p.a1.toNat p.a2.toNat

/-- Stated, R182. In a POSITIONED state with ranges valid and equal or disjoint, n > 0: issuing and
completing a DECRYPT_BYTE for each source byte in order succeeds; DECRYPT_BUF leaves the same keys
and the same POS; its output bytes in the destination range are the RESULT values of the n commands;
the commands leave the last plaintext byte in RESULT, DECRYPT_BUF leaves RESULT unchanged. -/
def Obligations.DecryptBufEqualsByteCommands : Prop :=
  ∀ (s : State) (p : Pend), s.pend = some p → s.phase = .positioned → p.a2 ≠ 0 →
    p.a0.toNat + p.a2.toNat ≤ s.params.memSize → p.a1.toNat + p.a2.toNat ≤ s.params.memSize →
    (p.a0 = p.a1 ∨ p.a0.toNat + p.a2.toNat ≤ p.a1.toNat ∨ p.a1.toNat + p.a2.toNat ≤ p.a0.toNat) →
    ∃ (out : List Byte) (u t : State),
      byteCommands s (s.bufBytes p.a0.toNat p.a2.toNat) = .next (out, u) ∧
      exec .decryptBuf s = .next t ∧
      t.keys = u.keys ∧ t.pos = u.pos ∧ t.bufBytes p.a1.toNat p.a2.toNat = out ∧
      out.getLast?.map (·.setWidth 32) = some u.result ∧ t.result = s.result
end

