-- ==== Sys2Proof/Laws/Memory.lean ====
section
/-!
SUPPORT. The laws of BUF's memory: a read after a write, and that a write keeps the canonical form and
stays inside the addresses it is given.
-/

namespace Sys2Proof.Machine

@[simp] theorem Memory.lookup_nil (a : Nat) : Memory.lookup [] a = none := rfl

/-- All that `lookup` finds after a `write`: the byte written at its address, the old ones elsewhere. -/
theorem Memory.lookup_write (m : Memory) (a x : Nat) (v : Byte) :
    Memory.lookup (Memory.write m a v) x = if x = a then some v else Memory.lookup m x := by
  induction m with
  | nil => simp [Memory.write, Memory.lookup, eq_comm]
  | cons c m ih =>
    simp only [Memory.write]
    split
    · simp [Memory.lookup, eq_comm]
    · split
      · rename_i h; subst h; simp only [Memory.lookup, eq_comm]; split <;> rfl
      · simp only [Memory.lookup, ih]; split <;> split <;> simp_all

/-- A read after a write: the byte written at its address, and every other address as before. -/
theorem Memory.read_write (resets : Nat) (m : Memory) (a x : Nat) (v : Byte) :
    Memory.read resets (Memory.write m a v) x = if x = a then v else Memory.read resets m x := by
  simp only [Memory.read, Memory.lookup_write]; split <;> rfl

@[simp] theorem Memory.read_write_self (resets : Nat) (m : Memory) (a : Nat) (v : Byte) :
    Memory.read resets (Memory.write m a v) a = v := by simp [Memory.read_write]

theorem Memory.read_write_other {a x : Nat} (h : x ≠ a) (resets : Nat) (m : Memory) (v : Byte) :
    Memory.read resets (Memory.write m a v) x = Memory.read resets m x := by
  simp [Memory.read_write, h]

/-- A write lists its own address and nothing else new. -/
theorem Memory.mem_write {m : Memory} {a : Nat} {v : Byte} {c : Host.Cell}
    (h : c ∈ Memory.write m a v) : c = (a, v) ∨ c ∈ m := by
  induction m with
  | nil => simpa [Memory.write] using h
  | cons d m ih =>
    simp only [Memory.write] at h
    split at h
    · simpa using h
    · split at h <;> simp only [List.mem_cons] at h ⊢
      · tauto
      · rcases h with h | h
        · tauto
        · have := ih h; tauto

/-- A write keeps the canonical form. -/
theorem Memory.wf_write {m : Memory} (h : Memory.Wf m) (a : Nat) (v : Byte) :
    Memory.Wf (Memory.write m a v) := by
  induction m with
  | nil => simp [Memory.write, Memory.Wf]
  | cons c m ih =>
    obtain ⟨hc, hm⟩ := List.pairwise_cons.mp h
    simp only [Memory.write]
    split
    · refine List.pairwise_cons.mpr ⟨fun d hd => ?_, h⟩
      rcases List.mem_cons.mp hd with rfl | hd
      · assumption
      · have := hc d hd; omega
    · split
      · rename_i h'
        exact List.pairwise_cons.mpr ⟨fun d hd => by simpa [h'] using hc d hd, hm⟩
      · refine List.pairwise_cons.mpr ⟨fun d hd => ?_, ih hm⟩
        rcases Memory.mem_write hd with rfl | hd
        · omega
        · exact hc d hd

/-- The memory after a reset is canonical. -/
theorem Memory.wf_reset (p : Params) : Memory.Wf (State.resetWith p).buf := List.Pairwise.nil

@[simp] theorem State.bufBytes_length (s : State) (base n : Nat) : (s.bufBytes base n).length = n := by
  induction n generalizing base with
  | zero => rfl
  | succ n ih => simp [State.bufBytes, ih]

/-- Byte sequences are read off BUF's bytes alone. -/
theorem State.bufBytes_congr {s t : State} {a b n : Nat}
    (h : ∀ k, k < n → s.bufByte (a + k) = t.bufByte (b + k)) : s.bufBytes a n = t.bufBytes b n := by
  induction n generalizing a b with
  | zero => rfl
  | succ n ih =>
    have h0 := h 0 (Nat.succ_pos n)
    simp only [Nat.add_zero] at h0
    simp only [State.bufBytes, h0]
    congr 1
    apply ih
    intro k hk
    have := h (k + 1) (by omega)
    rwa [show a + 1 + k = a + (k + 1) by omega, show b + 1 + k = b + (k + 1) by omega]

end Sys2Proof.Machine
end

