-- ==== Sys2Proof/Laws/Operands.lean ====
section
/-!
SUPPORT. What each operand form says, in natural numbers: ranges, the byte range of DECRYPT_BYTE, and where a
host access goes.
-/

namespace Sys2Proof.Machine

theorem validRange_iff (memSize : Nat) (a n : Word) :
    validRange memSize a n = true ↔ n = 0 ∨ a.toNat + n.toNat ≤ memSize := by
  simp [validRange]

theorem overlap_iff (a b n : Word) :
    overlap a b n = true ↔ a.toNat < b.toNat + n.toNat ∧ b.toNat < a.toNat + n.toNat := by
  simp [overlap]

theorem inRange_iff (x : Nat) (a n : Word) :
    inRange x a n = true ↔ a.toNat ≤ x ∧ x < a.toNat + n.toNat := by
  simp [inRange]

/-- The upper 24 bits of a word are 0 exactly when the word is a byte value. -/
theorem upper_zero_iff (v : Word) : v.extractLsb' 8 24 = 0 ↔ v.toNat < 256 := by
  have hv := v.isLt
  rw [← BitVec.toNat_inj]
  simp only [BitVec.extractLsb'_toNat, Nat.shiftRight_eq_div_pow, BitVec.ofNat_eq_ofNat,
    BitVec.toNat_ofNat]
  omega

theorem inByteRange_iff (v : Word) : inByteRange v = true ↔ v.toNat < 256 := by
  simp only [inByteRange, beq_iff_eq, upper_zero_iff]

theorem lowByte_eq (v : Word) : lowByte v = BitVec.ofNat 8 v.toNat := by
  rw [← BitVec.toNat_inj]; simp [lowByte]

/-- Each register stands at its offset (rule R90). -/
@[simp] theorem regAtOffset_offset (reg : Reg) : regAtOffset reg.offset = some reg := by
  cases reg <;> rfl

/-- Only the offsets of rule R90 hold a register. -/
theorem regAtOffset_eq_some {off : Nat} {reg : Reg} (h : regAtOffset off = some reg) :
    off = reg.offset := by
  simp only [regAtOffset] at h
  repeat' split at h
  all_goals first | (cases h; assumption) | cases h

/-- A 32-bit access reaches exactly the 4-aligned offsets below BUF_BASE (rules R60, R64). -/
theorem wordTarget_eq_ok {p : Params} {addr : Nat} {r : Option Reg} :
    wordTarget p addr = .ok r ↔
      ∃ off, addr = p.blockBase + off ∧ off < p.bufBase ∧ off % 4 = 0 ∧ r = regAtOffset off := by
  simp only [wordTarget]
  constructor
  · intro h
    repeat' split at h
    all_goals first
      | cases h; done
      | exact ⟨addr - p.blockBase, by omega, by omega, by omega, by cases h; rfl⟩
  · rintro ⟨off, rfl, h1, h2, rfl⟩
    have e : p.blockBase + off - p.blockBase = off := by omega
    rw [e, if_neg (by omega), if_neg (by omega), if_neg (by omega), if_neg (by omega)]

/-- A one-byte access reaches exactly the bytes of BUF (rule R91). -/
theorem byteTarget_eq_ok {p : Params} {addr a : Nat} :
    byteTarget p addr = .ok a ↔ addr = p.blockBase + p.bufBase + a ∧ a < p.memSize := by
  simp only [byteTarget]
  constructor
  · intro h
    repeat' split at h
    all_goals first
      | cases h; done
      | cases h; omega
  · rintro ⟨rfl, h⟩
    have e : p.blockBase + p.bufBase + a - p.blockBase - p.bufBase = a := by omega
    rw [e, if_neg (by omega), if_neg (by omega), if_neg (by omega)]

/-- A 32-bit access to a register's own address, for legal parameters. -/
theorem wordTarget_reg {p : Params} (h : p.Legal) (reg : Reg) :
    wordTarget p (p.blockBase + reg.offset) = .ok (some reg) := by
  refine wordTarget_eq_ok.mpr ⟨reg.offset, rfl, ?_, ?_, (regAtOffset_offset reg).symm⟩
  · have := h.2.2.2; cases reg <;> simp only [Reg.offset] <;> omega
  · cases reg <;> rfl

/-- A reserved offset (rule R92) holds no register. -/
theorem wordTarget_reserved {p : Params} {off : Nat} (h1 : 0x24 ≤ off) (h2 : off < p.bufBase)
    (h3 : off % 4 = 0) : wordTarget p (p.blockBase + off) = .ok none := by
  refine wordTarget_eq_ok.mpr ⟨off, rfl, h2, h3, ?_⟩
  symm
  cases h : regAtOffset off with
  | none => rfl
  | some reg => have := regAtOffset_eq_some h; subst this; cases reg <;> simp [Reg.offset] at h1

end Sys2Proof.Machine
end

