-- ==== Sys2Proof/Laws/State.lean ====
section
/-!
SUPPORT. Every field of the state after every named update, so that no proof unfolds an update.
-/

namespace Sys2Proof.Machine

variable (s : State)

@[simp] theorem State.setKeys_params (ks : KeyState) : (s.setKeys ks).params = s.params := rfl
@[simp] theorem State.setKeys_keys (ks : KeyState) : (s.setKeys ks).keys = ks := rfl
@[simp] theorem State.setKeys_arg0 (ks : KeyState) : (s.setKeys ks).arg0 = s.arg0 := rfl
@[simp] theorem State.setKeys_arg1 (ks : KeyState) : (s.setKeys ks).arg1 = s.arg1 := rfl
@[simp] theorem State.setKeys_arg2 (ks : KeyState) : (s.setKeys ks).arg2 = s.arg2 := rfl
@[simp] theorem State.setKeys_result (ks : KeyState) : (s.setKeys ks).result = s.result := rfl
@[simp] theorem State.setKeys_busy (ks : KeyState) : (s.setKeys ks).busy = s.busy := rfl
@[simp] theorem State.setKeys_phase (ks : KeyState) : (s.setKeys ks).phase = s.phase := rfl
@[simp] theorem State.setKeys_err (ks : KeyState) : (s.setKeys ks).err = s.err := rfl
@[simp] theorem State.setKeys_pend (ks : KeyState) : (s.setKeys ks).pend = s.pend := rfl
@[simp] theorem State.setKeys_pos (ks : KeyState) : (s.setKeys ks).pos = s.pos := rfl
@[simp] theorem State.setKeys_buf (ks : KeyState) : (s.setKeys ks).buf = s.buf := rfl
@[simp] theorem State.setKeys_resets (ks : KeyState) : (s.setKeys ks).resets = s.resets := rfl
@[simp] theorem State.setKeys_agenda (ks : KeyState) : (s.setKeys ks).agenda = s.agenda := rfl
@[simp] theorem State.setKeys_seen (ks : KeyState) : (s.setKeys ks).seen = s.seen := rfl
@[simp] theorem State.setKeys_errLog (ks : KeyState) : (s.setKeys ks).errLog = s.errLog := rfl

@[simp] theorem State.setResult_params (v : Word) : (s.setResult v).params = s.params := rfl
@[simp] theorem State.setResult_keys (v : Word) : (s.setResult v).keys = s.keys := rfl
@[simp] theorem State.setResult_arg0 (v : Word) : (s.setResult v).arg0 = s.arg0 := rfl
@[simp] theorem State.setResult_arg1 (v : Word) : (s.setResult v).arg1 = s.arg1 := rfl
@[simp] theorem State.setResult_arg2 (v : Word) : (s.setResult v).arg2 = s.arg2 := rfl
@[simp] theorem State.setResult_result (v : Word) : (s.setResult v).result = v := rfl
@[simp] theorem State.setResult_busy (v : Word) : (s.setResult v).busy = s.busy := rfl
@[simp] theorem State.setResult_phase (v : Word) : (s.setResult v).phase = s.phase := rfl
@[simp] theorem State.setResult_err (v : Word) : (s.setResult v).err = s.err := rfl
@[simp] theorem State.setResult_pend (v : Word) : (s.setResult v).pend = s.pend := rfl
@[simp] theorem State.setResult_pos (v : Word) : (s.setResult v).pos = s.pos := rfl
@[simp] theorem State.setResult_buf (v : Word) : (s.setResult v).buf = s.buf := rfl
@[simp] theorem State.setResult_resets (v : Word) : (s.setResult v).resets = s.resets := rfl
@[simp] theorem State.setResult_agenda (v : Word) : (s.setResult v).agenda = s.agenda := rfl
@[simp] theorem State.setResult_seen (v : Word) : (s.setResult v).seen = s.seen := rfl
@[simp] theorem State.setResult_errLog (v : Word) : (s.setResult v).errLog = s.errLog := rfl

@[simp] theorem State.startStream_params : s.startStream.params = s.params := rfl
@[simp] theorem State.startStream_keys : s.startStream.keys = s.keys := rfl
@[simp] theorem State.startStream_arg0 : s.startStream.arg0 = s.arg0 := rfl
@[simp] theorem State.startStream_arg1 : s.startStream.arg1 = s.arg1 := rfl
@[simp] theorem State.startStream_arg2 : s.startStream.arg2 = s.arg2 := rfl
@[simp] theorem State.startStream_result : s.startStream.result = s.result := rfl
@[simp] theorem State.startStream_busy : s.startStream.busy = s.busy := rfl
@[simp] theorem State.startStream_phase : s.startStream.phase = .positioned := rfl
@[simp] theorem State.startStream_err : s.startStream.err = s.err := rfl
@[simp] theorem State.startStream_pend : s.startStream.pend = s.pend := rfl
@[simp] theorem State.startStream_pos : s.startStream.pos = some 0 := rfl
@[simp] theorem State.startStream_buf : s.startStream.buf = s.buf := rfl
@[simp] theorem State.startStream_resets : s.startStream.resets = s.resets := rfl
@[simp] theorem State.startStream_agenda : s.startStream.agenda = s.agenda := rfl
@[simp] theorem State.startStream_seen : s.startStream.seen = s.seen := rfl
@[simp] theorem State.startStream_errLog : s.startStream.errLog = s.errLog := rfl

@[simp] theorem State.advance_params (n : Nat) : (s.advance n).params = s.params := rfl
@[simp] theorem State.advance_keys (n : Nat) : (s.advance n).keys = s.keys := rfl
@[simp] theorem State.advance_arg0 (n : Nat) : (s.advance n).arg0 = s.arg0 := rfl
@[simp] theorem State.advance_arg1 (n : Nat) : (s.advance n).arg1 = s.arg1 := rfl
@[simp] theorem State.advance_arg2 (n : Nat) : (s.advance n).arg2 = s.arg2 := rfl
@[simp] theorem State.advance_result (n : Nat) : (s.advance n).result = s.result := rfl
@[simp] theorem State.advance_busy (n : Nat) : (s.advance n).busy = s.busy := rfl
@[simp] theorem State.advance_phase (n : Nat) : (s.advance n).phase = s.phase := rfl
@[simp] theorem State.advance_err (n : Nat) : (s.advance n).err = s.err := rfl
@[simp] theorem State.advance_pend (n : Nat) : (s.advance n).pend = s.pend := rfl
@[simp] theorem State.advance_pos (n : Nat) : (s.advance n).pos = s.pos.map (· + n) := rfl
@[simp] theorem State.advance_buf (n : Nat) : (s.advance n).buf = s.buf := rfl
@[simp] theorem State.advance_resets (n : Nat) : (s.advance n).resets = s.resets := rfl
@[simp] theorem State.advance_agenda (n : Nat) : (s.advance n).agenda = s.agenda := rfl
@[simp] theorem State.advance_seen (n : Nat) : (s.advance n).seen = s.seen := rfl
@[simp] theorem State.advance_errLog (n : Nat) : (s.advance n).errLog = s.errLog := rfl

@[simp] theorem State.setBuf_params (m : Memory) : (s.setBuf m).params = s.params := rfl
@[simp] theorem State.setBuf_keys (m : Memory) : (s.setBuf m).keys = s.keys := rfl
@[simp] theorem State.setBuf_arg0 (m : Memory) : (s.setBuf m).arg0 = s.arg0 := rfl
@[simp] theorem State.setBuf_arg1 (m : Memory) : (s.setBuf m).arg1 = s.arg1 := rfl
@[simp] theorem State.setBuf_arg2 (m : Memory) : (s.setBuf m).arg2 = s.arg2 := rfl
@[simp] theorem State.setBuf_result (m : Memory) : (s.setBuf m).result = s.result := rfl
@[simp] theorem State.setBuf_busy (m : Memory) : (s.setBuf m).busy = s.busy := rfl
@[simp] theorem State.setBuf_phase (m : Memory) : (s.setBuf m).phase = s.phase := rfl
@[simp] theorem State.setBuf_err (m : Memory) : (s.setBuf m).err = s.err := rfl
@[simp] theorem State.setBuf_pend (m : Memory) : (s.setBuf m).pend = s.pend := rfl
@[simp] theorem State.setBuf_pos (m : Memory) : (s.setBuf m).pos = s.pos := rfl
@[simp] theorem State.setBuf_buf (m : Memory) : (s.setBuf m).buf = m := rfl
@[simp] theorem State.setBuf_resets (m : Memory) : (s.setBuf m).resets = s.resets := rfl
@[simp] theorem State.setBuf_agenda (m : Memory) : (s.setBuf m).agenda = s.agenda := rfl
@[simp] theorem State.setBuf_seen (m : Memory) : (s.setBuf m).seen = s.seen := rfl
@[simp] theorem State.setBuf_errLog (m : Memory) : (s.setBuf m).errLog = s.errLog := rfl

@[simp] theorem State.setArg0_params (v : Word) : (s.setArg0 v).params = s.params := rfl
@[simp] theorem State.setArg0_keys (v : Word) : (s.setArg0 v).keys = s.keys := rfl
@[simp] theorem State.setArg0_arg0 (v : Word) : (s.setArg0 v).arg0 = v := rfl
@[simp] theorem State.setArg0_arg1 (v : Word) : (s.setArg0 v).arg1 = s.arg1 := rfl
@[simp] theorem State.setArg0_arg2 (v : Word) : (s.setArg0 v).arg2 = s.arg2 := rfl
@[simp] theorem State.setArg0_result (v : Word) : (s.setArg0 v).result = s.result := rfl
@[simp] theorem State.setArg0_busy (v : Word) : (s.setArg0 v).busy = s.busy := rfl
@[simp] theorem State.setArg0_phase (v : Word) : (s.setArg0 v).phase = s.phase := rfl
@[simp] theorem State.setArg0_err (v : Word) : (s.setArg0 v).err = s.err := rfl
@[simp] theorem State.setArg0_pend (v : Word) : (s.setArg0 v).pend = s.pend := rfl
@[simp] theorem State.setArg0_pos (v : Word) : (s.setArg0 v).pos = s.pos := rfl
@[simp] theorem State.setArg0_buf (v : Word) : (s.setArg0 v).buf = s.buf := rfl
@[simp] theorem State.setArg0_resets (v : Word) : (s.setArg0 v).resets = s.resets := rfl
@[simp] theorem State.setArg0_agenda (v : Word) : (s.setArg0 v).agenda = s.agenda := rfl
@[simp] theorem State.setArg0_seen (v : Word) : (s.setArg0 v).seen = s.seen := rfl
@[simp] theorem State.setArg0_errLog (v : Word) : (s.setArg0 v).errLog = s.errLog := rfl

@[simp] theorem State.setArg1_params (v : Word) : (s.setArg1 v).params = s.params := rfl
@[simp] theorem State.setArg1_keys (v : Word) : (s.setArg1 v).keys = s.keys := rfl
@[simp] theorem State.setArg1_arg0 (v : Word) : (s.setArg1 v).arg0 = s.arg0 := rfl
@[simp] theorem State.setArg1_arg1 (v : Word) : (s.setArg1 v).arg1 = v := rfl
@[simp] theorem State.setArg1_arg2 (v : Word) : (s.setArg1 v).arg2 = s.arg2 := rfl
@[simp] theorem State.setArg1_result (v : Word) : (s.setArg1 v).result = s.result := rfl
@[simp] theorem State.setArg1_busy (v : Word) : (s.setArg1 v).busy = s.busy := rfl
@[simp] theorem State.setArg1_phase (v : Word) : (s.setArg1 v).phase = s.phase := rfl
@[simp] theorem State.setArg1_err (v : Word) : (s.setArg1 v).err = s.err := rfl
@[simp] theorem State.setArg1_pend (v : Word) : (s.setArg1 v).pend = s.pend := rfl
@[simp] theorem State.setArg1_pos (v : Word) : (s.setArg1 v).pos = s.pos := rfl
@[simp] theorem State.setArg1_buf (v : Word) : (s.setArg1 v).buf = s.buf := rfl
@[simp] theorem State.setArg1_resets (v : Word) : (s.setArg1 v).resets = s.resets := rfl
@[simp] theorem State.setArg1_agenda (v : Word) : (s.setArg1 v).agenda = s.agenda := rfl
@[simp] theorem State.setArg1_seen (v : Word) : (s.setArg1 v).seen = s.seen := rfl
@[simp] theorem State.setArg1_errLog (v : Word) : (s.setArg1 v).errLog = s.errLog := rfl

@[simp] theorem State.setArg2_params (v : Word) : (s.setArg2 v).params = s.params := rfl
@[simp] theorem State.setArg2_keys (v : Word) : (s.setArg2 v).keys = s.keys := rfl
@[simp] theorem State.setArg2_arg0 (v : Word) : (s.setArg2 v).arg0 = s.arg0 := rfl
@[simp] theorem State.setArg2_arg1 (v : Word) : (s.setArg2 v).arg1 = s.arg1 := rfl
@[simp] theorem State.setArg2_arg2 (v : Word) : (s.setArg2 v).arg2 = v := rfl
@[simp] theorem State.setArg2_result (v : Word) : (s.setArg2 v).result = s.result := rfl
@[simp] theorem State.setArg2_busy (v : Word) : (s.setArg2 v).busy = s.busy := rfl
@[simp] theorem State.setArg2_phase (v : Word) : (s.setArg2 v).phase = s.phase := rfl
@[simp] theorem State.setArg2_err (v : Word) : (s.setArg2 v).err = s.err := rfl
@[simp] theorem State.setArg2_pend (v : Word) : (s.setArg2 v).pend = s.pend := rfl
@[simp] theorem State.setArg2_pos (v : Word) : (s.setArg2 v).pos = s.pos := rfl
@[simp] theorem State.setArg2_buf (v : Word) : (s.setArg2 v).buf = s.buf := rfl
@[simp] theorem State.setArg2_resets (v : Word) : (s.setArg2 v).resets = s.resets := rfl
@[simp] theorem State.setArg2_agenda (v : Word) : (s.setArg2 v).agenda = s.agenda := rfl
@[simp] theorem State.setArg2_seen (v : Word) : (s.setArg2 v).seen = s.seen := rfl
@[simp] theorem State.setArg2_errLog (v : Word) : (s.setArg2 v).errLog = s.errLog := rfl

@[simp] theorem State.issue_params (w : Word) : (s.issue w).params = s.params := rfl
@[simp] theorem State.issue_keys (w : Word) : (s.issue w).keys = s.keys := rfl
@[simp] theorem State.issue_arg0 (w : Word) : (s.issue w).arg0 = s.arg0 := rfl
@[simp] theorem State.issue_arg1 (w : Word) : (s.issue w).arg1 = s.arg1 := rfl
@[simp] theorem State.issue_arg2 (w : Word) : (s.issue w).arg2 = s.arg2 := rfl
@[simp] theorem State.issue_result (w : Word) : (s.issue w).result = s.result := rfl
@[simp] theorem State.issue_busy (w : Word) : (s.issue w).busy = true := rfl
@[simp] theorem State.issue_phase (w : Word) : (s.issue w).phase = s.phase := rfl
@[simp] theorem State.issue_err (w : Word) : (s.issue w).err = s.err := rfl
@[simp] theorem State.issue_pend (w : Word) : (s.issue w).pend = some ⟨w, s.arg0, s.arg1, s.arg2⟩ := rfl
@[simp] theorem State.issue_pos (w : Word) : (s.issue w).pos = s.pos := rfl
@[simp] theorem State.issue_buf (w : Word) : (s.issue w).buf = s.buf := rfl
@[simp] theorem State.issue_resets (w : Word) : (s.issue w).resets = s.resets := rfl
@[simp] theorem State.issue_agenda (w : Word) : (s.issue w).agenda = s.agenda := rfl
@[simp] theorem State.issue_seen (w : Word) : (s.issue w).seen = s.seen := rfl
@[simp] theorem State.issue_errLog (w : Word) : (s.issue w).errLog = s.errLog := rfl

@[simp] theorem State.succeed_params : s.succeed.params = s.params := rfl
@[simp] theorem State.succeed_keys : s.succeed.keys = s.keys := rfl
@[simp] theorem State.succeed_arg0 : s.succeed.arg0 = s.arg0 := rfl
@[simp] theorem State.succeed_arg1 : s.succeed.arg1 = s.arg1 := rfl
@[simp] theorem State.succeed_arg2 : s.succeed.arg2 = s.arg2 := rfl
@[simp] theorem State.succeed_result : s.succeed.result = s.result := rfl
@[simp] theorem State.succeed_busy : s.succeed.busy = false := rfl
@[simp] theorem State.succeed_phase : s.succeed.phase = s.phase := rfl
@[simp] theorem State.succeed_err : s.succeed.err = .ok := rfl
@[simp] theorem State.succeed_pend : s.succeed.pend = none := rfl
@[simp] theorem State.succeed_pos : s.succeed.pos = s.pos := rfl
@[simp] theorem State.succeed_buf : s.succeed.buf = s.buf := rfl
@[simp] theorem State.succeed_resets : s.succeed.resets = s.resets := rfl
@[simp] theorem State.succeed_agenda : s.succeed.agenda = s.agenda := rfl
@[simp] theorem State.succeed_seen : s.succeed.seen = s.seen := rfl
@[simp] theorem State.succeed_errLog : s.succeed.errLog = s.errLog := rfl

@[simp] theorem State.raise_params (e : ErrCode) : (s.raise e).params = s.params := rfl
@[simp] theorem State.raise_keys (e : ErrCode) : (s.raise e).keys = s.keys := rfl
@[simp] theorem State.raise_arg0 (e : ErrCode) : (s.raise e).arg0 = s.arg0 := rfl
@[simp] theorem State.raise_arg1 (e : ErrCode) : (s.raise e).arg1 = s.arg1 := rfl
@[simp] theorem State.raise_arg2 (e : ErrCode) : (s.raise e).arg2 = s.arg2 := rfl
@[simp] theorem State.raise_result (e : ErrCode) : (s.raise e).result = s.result := rfl
@[simp] theorem State.raise_busy (e : ErrCode) : (s.raise e).busy = false := rfl
@[simp] theorem State.raise_phase (e : ErrCode) : (s.raise e).phase = s.phase := rfl
@[simp] theorem State.raise_err (e : ErrCode) : (s.raise e).err = e := rfl
@[simp] theorem State.raise_pend (e : ErrCode) : (s.raise e).pend = none := rfl
@[simp] theorem State.raise_pos (e : ErrCode) : (s.raise e).pos = s.pos := rfl
@[simp] theorem State.raise_buf (e : ErrCode) : (s.raise e).buf = s.buf := rfl
@[simp] theorem State.raise_resets (e : ErrCode) : (s.raise e).resets = s.resets := rfl
@[simp] theorem State.raise_agenda (e : ErrCode) : (s.raise e).agenda = s.agenda := rfl
@[simp] theorem State.raise_seen (e : ErrCode) : (s.raise e).seen = s.seen := rfl
@[simp] theorem State.raise_errLog (e : ErrCode) : (s.raise e).errLog = e :: s.errLog := rfl

@[simp] theorem State.observe_params (v : Observed) : (s.observe v).params = s.params := rfl
@[simp] theorem State.observe_keys (v : Observed) : (s.observe v).keys = s.keys := rfl
@[simp] theorem State.observe_arg0 (v : Observed) : (s.observe v).arg0 = s.arg0 := rfl
@[simp] theorem State.observe_arg1 (v : Observed) : (s.observe v).arg1 = s.arg1 := rfl
@[simp] theorem State.observe_arg2 (v : Observed) : (s.observe v).arg2 = s.arg2 := rfl
@[simp] theorem State.observe_result (v : Observed) : (s.observe v).result = s.result := rfl
@[simp] theorem State.observe_busy (v : Observed) : (s.observe v).busy = s.busy := rfl
@[simp] theorem State.observe_phase (v : Observed) : (s.observe v).phase = s.phase := rfl
@[simp] theorem State.observe_err (v : Observed) : (s.observe v).err = s.err := rfl
@[simp] theorem State.observe_pend (v : Observed) : (s.observe v).pend = s.pend := rfl
@[simp] theorem State.observe_pos (v : Observed) : (s.observe v).pos = s.pos := rfl
@[simp] theorem State.observe_buf (v : Observed) : (s.observe v).buf = s.buf := rfl
@[simp] theorem State.observe_resets (v : Observed) : (s.observe v).resets = s.resets := rfl
@[simp] theorem State.observe_agenda (v : Observed) : (s.observe v).agenda = s.agenda := rfl
@[simp] theorem State.observe_seen (v : Observed) : (s.observe v).seen = v :: s.seen := rfl
@[simp] theorem State.observe_errLog (v : Observed) : (s.observe v).errLog = s.errLog := rfl

@[simp] theorem State.setAgenda_params (ts : List Turn) : (s.setAgenda ts).params = s.params := rfl
@[simp] theorem State.setAgenda_keys (ts : List Turn) : (s.setAgenda ts).keys = s.keys := rfl
@[simp] theorem State.setAgenda_arg0 (ts : List Turn) : (s.setAgenda ts).arg0 = s.arg0 := rfl
@[simp] theorem State.setAgenda_arg1 (ts : List Turn) : (s.setAgenda ts).arg1 = s.arg1 := rfl
@[simp] theorem State.setAgenda_arg2 (ts : List Turn) : (s.setAgenda ts).arg2 = s.arg2 := rfl
@[simp] theorem State.setAgenda_result (ts : List Turn) : (s.setAgenda ts).result = s.result := rfl
@[simp] theorem State.setAgenda_busy (ts : List Turn) : (s.setAgenda ts).busy = s.busy := rfl
@[simp] theorem State.setAgenda_phase (ts : List Turn) : (s.setAgenda ts).phase = s.phase := rfl
@[simp] theorem State.setAgenda_err (ts : List Turn) : (s.setAgenda ts).err = s.err := rfl
@[simp] theorem State.setAgenda_pend (ts : List Turn) : (s.setAgenda ts).pend = s.pend := rfl
@[simp] theorem State.setAgenda_pos (ts : List Turn) : (s.setAgenda ts).pos = s.pos := rfl
@[simp] theorem State.setAgenda_buf (ts : List Turn) : (s.setAgenda ts).buf = s.buf := rfl
@[simp] theorem State.setAgenda_resets (ts : List Turn) : (s.setAgenda ts).resets = s.resets := rfl
@[simp] theorem State.setAgenda_agenda (ts : List Turn) : (s.setAgenda ts).agenda = ts := rfl
@[simp] theorem State.setAgenda_seen (ts : List Turn) : (s.setAgenda ts).seen = s.seen := rfl
@[simp] theorem State.setAgenda_errLog (ts : List Turn) : (s.setAgenda ts).errLog = s.errLog := rfl

@[simp] theorem State.hardReset_params : s.hardReset.params = s.params := rfl
@[simp] theorem State.hardReset_keys : s.hardReset.keys = ⟨0, 0, 0⟩ := rfl
@[simp] theorem State.hardReset_arg0 : s.hardReset.arg0 = 0 := rfl
@[simp] theorem State.hardReset_arg1 : s.hardReset.arg1 = 0 := rfl
@[simp] theorem State.hardReset_arg2 : s.hardReset.arg2 = 0 := rfl
@[simp] theorem State.hardReset_result : s.hardReset.result = 0 := rfl
@[simp] theorem State.hardReset_busy : s.hardReset.busy = false := rfl
@[simp] theorem State.hardReset_phase : s.hardReset.phase = .uninit := rfl
@[simp] theorem State.hardReset_err : s.hardReset.err = .ok := rfl
@[simp] theorem State.hardReset_pend : s.hardReset.pend = none := rfl
@[simp] theorem State.hardReset_pos : s.hardReset.pos = none := rfl
@[simp] theorem State.hardReset_buf : s.hardReset.buf = [] := rfl
@[simp] theorem State.hardReset_resets : s.hardReset.resets = s.resets + 1 := rfl
@[simp] theorem State.hardReset_agenda : s.hardReset.agenda = s.agenda := rfl
@[simp] theorem State.hardReset_seen : s.hardReset.seen = s.seen := rfl
@[simp] theorem State.hardReset_errLog : s.hardReset.errLog = s.errLog := rfl

/-- Two states with the same fields are the same state. -/
@[ext] theorem State.ext_fields {s t : State} (params : s.params = t.params) (keys : s.keys = t.keys)
    (arg0 : s.arg0 = t.arg0) (arg1 : s.arg1 = t.arg1) (arg2 : s.arg2 = t.arg2)
    (result : s.result = t.result) (busy : s.busy = t.busy) (phase : s.phase = t.phase)
    (err : s.err = t.err) (pend : s.pend = t.pend) (pos : s.pos = t.pos) (buf : s.buf = t.buf)
    (resets : s.resets = t.resets) (agenda : s.agenda = t.agenda) (seen : s.seen = t.seen)
    (errLog : s.errLog = t.errLog) : s = t := by
  cases s; cases t; simp_all

end Sys2Proof.Machine
end

