-- ==== Sys2Proof/Laws/Commands.lean ====
section
/-!
SUPPORT. What completing a command can do, once: the loops as functions of bytes, and one inversion lemma per
meaning and for the completion of any word.
-/

namespace Sys2Proof.Machine

theorem completeWith_some {s : State} {p : Pend} (h : s.pend = some p) (effect : Pend → State) :
    completeWith effect s = .next (effect p) := by
  simp only [completeWith, h]

theorem completeWith_next {s t : State} {effect : Pend → State} (h : completeWith effect s = .next t) :
    ∃ p, s.pend = some p ∧ t = effect p := by
  unfold completeWith at h
  split at h
  · cases h
  · rename_i p hp; cases h; exact ⟨p, hp, rfl⟩

/-- INIT's loop folds the bytes of the range, in order (rules R130, R140). -/
theorem initLoop_eq (s : State) (base : Nat) (ks : KeyState) (n : Nat) :
    initLoop s base ks n = (s.bufBytes base n).foldl updateKeys ks := by
  induction n generalizing base ks with
  | zero => rfl
  | succ n ih => simp only [initLoop, State.bufBytes, List.foldl_cons, ih]

/-- DECRYPT_BUF's loop leaves every byte outside the destination range (rule R181). -/
theorem decryptLoop_read_outside (resets src dst : Nat) (ks : KeyState) (m : Memory) (n x : Nat)
    (h : x < dst ∨ dst + n ≤ x) :
    Memory.read resets (decryptLoop resets src dst ks m n).2 x = Memory.read resets m x := by
  induction n generalizing src dst ks m with
  | zero => rfl
  | succ n ih =>
    simp only [decryptLoop]
    rw [ih _ _ _ _ (by omega), Memory.read_write_other (by omega)]

/-- DECRYPT_BUF's loop keeps the canonical form. -/
theorem decryptLoop_wf {m : Memory} (hm : Memory.Wf m) (resets src dst : Nat) (ks : KeyState) (n : Nat) :
    Memory.Wf (decryptLoop resets src dst ks m n).2 := by
  induction n generalizing src dst ks m with
  | zero => exact hm
  | succ n ih => exact ih (Memory.wf_write hm _ _) _ _ _

/-- DECRYPT_BUF's loop lists no address outside the destination range that was not listed. -/
theorem decryptLoop_inside {m : Memory} {size : Nat} (hm : ∀ c ∈ m, c.1 < size) (resets src dst : Nat)
    (ks : KeyState) (n : Nat) (hd : dst + n ≤ size) :
    ∀ c ∈ (decryptLoop resets src dst ks m n).2, c.1 < size := by
  induction n generalizing src dst ks m with
  | zero => exact hm
  | succ n ih =>
    refine ih (fun c hc => ?_) _ _ _ (by omega)
    rcases Memory.mem_write hc with rfl | hc
    · show dst < size; omega
    · exact hm c hc

/-- All that an INIT can do (rule R140). -/
theorem execInit_cases {s t : State} (h : execInit s = .next t) : ∃ p, s.pend = some p ∧
    ((validRange s.params.memSize p.pwBase p.pwLen = true ∧
        t = ((s.setKeys (initLoop s p.pwBase.toNat KeyState.iv p.pwLen.toNat)).startStream).succeed) ∨
      t = s.raise .argument) := by
  obtain ⟨p, hp, rfl⟩ := completeWith_next h
  refine ⟨p, hp, ?_⟩
  unfold initEffect
  split
  · exact .inl ⟨‹_›, rfl⟩
  · exact .inr rfl

/-- All that a DECRYPT_BYTE can do (rule R160). -/
theorem execDecryptByte_cases {s t : State} (h : execDecryptByte s = .next t) : ∃ p, s.pend = some p ∧
    ((s.phase = .positioned ∧ p.value.toNat < 256 ∧
        t = (((s.setKeys (decryptByte s.keys (lowByte p.value)).2).setResult
              ((decryptByte s.keys (lowByte p.value)).1.setWidth 32)).advance 1).succeed) ∨
      ∃ e, e ≠ .ok ∧ t = s.raise e) := by
  obtain ⟨p, hp, rfl⟩ := completeWith_next h
  refine ⟨p, hp, ?_⟩
  unfold decryptByteEffect
  split
  · exact .inr ⟨.sequence, by decide, rfl⟩
  · split
    · exact .inr ⟨.range, by decide, rfl⟩
    · rename_i h1 h2
      refine .inl ⟨?_, (inByteRange_iff _).mp (by simpa using h2), rfl⟩
      cases hph : s.phase
      · exact absurd hph h1
      · rfl

/-- All that a DECRYPT_BUF can do (rule R180). -/
theorem execDecryptBuf_cases {s t : State} (h : execDecryptBuf s = .next t) : ∃ p, s.pend = some p ∧
    ((s.phase = .positioned ∧ p.len = 0 ∧ t = s.succeed) ∨
      (s.phase = .positioned ∧ p.len ≠ 0 ∧ p.src.toNat + p.len.toNat ≤ s.params.memSize ∧
        p.dst.toNat + p.len.toNat ≤ s.params.memSize ∧
        t = (((s.setKeys (decryptLoop s.resets p.src.toNat p.dst.toNat s.keys s.buf p.len.toNat).1).setBuf
              (decryptLoop s.resets p.src.toNat p.dst.toNat s.keys s.buf p.len.toNat).2).advance
                p.len.toNat).succeed) ∨
      ∃ e, e ≠ .ok ∧ t = s.raise e) := by
  obtain ⟨p, hp, rfl⟩ := completeWith_next h
  refine ⟨p, hp, ?_⟩
  unfold decryptBufEffect
  split
  · exact .inr (.inr ⟨.sequence, by decide, rfl⟩)
  · rename_i h1
    have hph : s.phase = .positioned := by
      cases hph : s.phase
      · exact absurd hph h1
      · rfl
    split
    · exact .inl ⟨hph, ‹_›, rfl⟩
    · rename_i hn
      split
      · exact .inr (.inr ⟨.argument, by decide, rfl⟩)
      · rename_i hsrc
        split
        · exact .inr (.inr ⟨.resource, by decide, rfl⟩)
        · rename_i hdst
          split
          · exact .inr (.inr ⟨.argument, by decide, rfl⟩)
          · have hs := (validRange_iff _ _ _).mp (by simpa using hsrc)
            have hd := (validRange_iff _ _ _).mp (by simpa using hdst)
            exact .inr (.inl ⟨hph, hn, hs.resolve_left hn, hd.resolve_left hn, rfl⟩)

/-- A command completes whenever one is pending (rule R204). -/
theorem exec_completes {s : State} {p : Pend} (h : s.pend = some p) (i : Instr) :
    ∃ t, exec i s = .next t := by
  cases i
  · exact ⟨_, completeWith_some h _⟩
  · exact ⟨_, completeWith_some h _⟩
  · exact ⟨_, completeWith_some h _⟩

/-- So does any word. -/
theorem completeWord_completes {s : State} {p : Pend} (h : s.pend = some p) (w : Word) :
    ∃ t, completeWord w s = .next t := by
  unfold completeWord
  split
  · exact exec_completes h _
  · exact ⟨_, completeWith_some h _⟩

/-- Every completion, of any word, ends the pending command (rule R203). -/
theorem completeWord_ends {s t : State} {w : Word} (h : completeWord w s = .next t) :
    t.busy = false ∧ t.pend = none := by
  unfold completeWord at h
  split at h
  · rename_i i _
    cases i
    · obtain ⟨p, _, ⟨_, rfl⟩ | rfl⟩ := execInit_cases h <;> exact ⟨rfl, rfl⟩
    · obtain ⟨p, _, ⟨_, _, rfl⟩ | ⟨e, _, rfl⟩⟩ := execDecryptByte_cases h <;> exact ⟨rfl, rfl⟩
    · obtain ⟨p, _, ⟨_, _, rfl⟩ | ⟨_, _, _, _, rfl⟩ | ⟨e, _, rfl⟩⟩ := execDecryptBuf_cases h <;>
        exact ⟨rfl, rfl⟩
  · obtain ⟨p, _, rfl⟩ := completeWith_next h
    exact ⟨rfl, rfl⟩

/-- What every completion leaves alone. -/
theorem completeWord_keeps {s t : State} {w : Word} (h : completeWord w s = .next t) :
    t.params = s.params ∧ t.arg0 = s.arg0 ∧ t.arg1 = s.arg1 ∧ t.arg2 = s.arg2 ∧ t.resets = s.resets ∧
      t.agenda = s.agenda ∧ t.seen = s.seen := by
  unfold completeWord at h
  split at h
  · rename_i i _
    cases i
    · obtain ⟨p, _, ⟨_, rfl⟩ | rfl⟩ := execInit_cases h <;> exact ⟨rfl, rfl, rfl, rfl, rfl, rfl, rfl⟩
    · obtain ⟨p, _, ⟨_, _, rfl⟩ | ⟨e, _, rfl⟩⟩ := execDecryptByte_cases h <;>
        exact ⟨rfl, rfl, rfl, rfl, rfl, rfl, rfl⟩
    · obtain ⟨p, _, ⟨_, _, rfl⟩ | ⟨_, _, _, _, rfl⟩ | ⟨e, _, rfl⟩⟩ := execDecryptBuf_cases h <;>
        exact ⟨rfl, rfl, rfl, rfl, rfl, rfl, rfl⟩
  · obtain ⟨p, _, rfl⟩ := completeWith_next h
    exact ⟨rfl, rfl, rfl, rfl, rfl, rfl, rfl⟩

end Sys2Proof.Machine
end

