-- ==== Sys2Proof/Laws/PerInstr.lean ====
section
/-!
SUPPORT. The statements made per instruction: the family Encoding says that an instruction's word has no
reserved bit set, carries the instruction's opcode, and decodes to the instruction (30_encoding.md rules R93,
R94, R98).
-/

/-- What the family Encoding says of an instruction. -/
def Sys2Proof.Laws.Encoding.Statement (i : Sys2Proof.Instr) : Prop :=
  Sys2Proof.rsvField (Sys2Proof.encode i) = 0 ∧
    Sys2Proof.opField (Sys2Proof.encode i) = Sys2Proof.opcode i ∧
    Sys2Proof.LegalWord (Sys2Proof.encode i) ∧
    (i.wf = true → Sys2Proof.decodeTableWord 32 (Sys2Proof.encode i).toNat = some i)

theorem Sys2Proof.Laws.Encoding.init : Sys2Proof.Laws.Encoding.Statement .init := by
  unfold Sys2Proof.Laws.Encoding.Statement; decide

theorem Sys2Proof.Laws.Encoding.decryptByte : Sys2Proof.Laws.Encoding.Statement .decryptByte := by
  unfold Sys2Proof.Laws.Encoding.Statement; decide

theorem Sys2Proof.Laws.Encoding.decryptBuf : Sys2Proof.Laws.Encoding.Statement .decryptBuf := by
  unfold Sys2Proof.Laws.Encoding.Statement; decide
end

