-- ==== Sys2Proof/Laws/Step.lean ====
section
/-!
SUPPORT. What a host move and a step can do, once: one inversion lemma each, from which every statement about
all steps is derived.
-/

namespace Sys2Proof.Machine

/-- All that a host move can do (rule R215). -/
theorem hostMove_cases {m : HostMove} {s t : State} (h : hostMove m s = .next t) :
    (∃ v, s.busy = false ∧ m = .write32 s.params.blockBase v ∧ t = s.issue v) ∨
    (∃ v, m = .write32 (s.params.blockBase + 0x04) v ∧ t = s.setArg0 v) ∨
    (∃ v, m = .write32 (s.params.blockBase + 0x08) v ∧ t = s.setArg1 v) ∨
    (∃ v, m = .write32 (s.params.blockBase + 0x0C) v ∧ t = s.setArg2 v) ∨
    ((∃ addr v, m = .write32 addr v) ∧ t = s) ∨
    (∃ a b, a < s.params.memSize ∧ m = .write8 (s.params.blockBase + s.params.bufBase + a) b ∧
      s.mayWriteBuf a = true ∧ t = s.setBuf (Memory.write s.buf a b)) ∨
    ((∃ addr, m = .read32 addr ∨ m = .read8 addr) ∧ ∃ v, t = s.observe v) ∨
    (m = .wait ∧ t = s) ∨ (m = .reset ∧ t = s.hardReset) := by
  cases m with
  | write32 addr v =>
    simp only [hostMove, hostWrite32] at h
    split at h
    · cases h
    · cases h; simp
    · rename_i reg hreg
      obtain ⟨off, rfl, -, -, hr⟩ := wordTarget_eq_ok.mp hreg
      obtain rfl := regAtOffset_eq_some hr.symm
      cases reg <;> simp only [writeReg] at h
      · split at h
        · cases h
        · cases h; left; exact ⟨v, by simpa using ‹¬ s.busy = true›, rfl, rfl⟩
      all_goals cases h; simp [Reg.offset]
  | write8 addr b =>
    simp only [hostMove, hostWrite8] at h
    split at h
    · cases h
    · rename_i a ha
      obtain ⟨rfl, hlt⟩ := byteTarget_eq_ok.mp ha
      split at h
      · cases h
        exact .inr (.inr (.inr (.inr (.inr (.inl ⟨a, b, hlt, rfl, ‹_›, rfl⟩)))))
      · cases h
  | read32 addr =>
    simp only [hostMove, hostRead32] at h
    split at h <;> cases h
    · exact .inr (.inr (.inr (.inr (.inr (.inr (.inl ⟨⟨addr, .inl rfl⟩, _, rfl⟩))))))
    · exact .inr (.inr (.inr (.inr (.inr (.inr (.inl ⟨⟨addr, .inl rfl⟩, _, rfl⟩))))))
  | read8 addr =>
    simp only [hostMove, hostRead8] at h
    split at h <;> cases h
    exact .inr (.inr (.inr (.inr (.inr (.inr (.inl ⟨⟨addr, .inr rfl⟩, _, rfl⟩))))))
  | otherWidth bits addr => cases h
  | wait => cases h; simp
  | reset => cases h; simp

/-- An engine turn either completes the pending word or, at BUSY = 0, changes nothing. -/
theorem engineTurn_cases {s t : State} (h : engineTurn s = .next t) :
    (s.busy = false ∧ t = s) ∨
      (s.busy = true ∧ ∃ p, s.pend = some p ∧ completeWord p.cmd s = .next t) := by
  unfold engineTurn at h
  split at h
  · split at h
    · cases h
    · exact .inr ⟨‹_›, _, ‹_›, h⟩
  · rename_i hb; cases h; exact .inl ⟨by simpa using hb, rfl⟩

/-- The engine's turn is an engine turn on the state without its agenda entry. -/
theorem step_engine {s : State} (h : s.EngineNext) (hb : s.busy = true) : step s = engineTurn s.afterTurn := by
  obtain h | ⟨r, h⟩ | ⟨r, h⟩ := h <;> simp [step, takeTurn, State.afterTurn, h, hb]

/-- Taking the engine's entry off the agenda changes the agenda alone. -/
theorem afterTurn_eq (s : State) : ∃ ts, s.afterTurn = s.setAgenda ts := by
  unfold State.afterTurn
  split
  · exact ⟨_, rfl⟩
  · exact ⟨s.agenda, rfl⟩

/-- All that a step can do: the engine completes the pending word, nothing but the agenda changes, or the host
performs a move. -/
theorem step_cases {s t : State} (h : step s = .next t) :
    (s.EngineNext ∧ s.busy = true ∧ ∃ p, s.pend = some p ∧ completeWord p.cmd s.afterTurn = .next t) ∨
    (s.busy = false ∧ ∃ ts, t = s.setAgenda ts) ∨
    (∃ m rest, s.agenda = .host m :: rest ∧ hostMove m (s.setAgenda rest) = .next t) := by
  unfold step takeTurn at h
  split at h
  · rename_i ha
    rcases engineTurn_cases h with ⟨hb, rfl⟩ | ⟨hb, p, hp, hc⟩
    · exact .inr (.inl ⟨hb, t.agenda, rfl⟩)
    · exact .inl ⟨.inl ha, hb, p, hp, by simpa [State.afterTurn, ha] using hc⟩
  · rename_i rest ha
    rcases engineTurn_cases h with ⟨hb, rfl⟩ | ⟨hb, p, hp, hc⟩
    · exact .inr (.inl ⟨hb, rest, rfl⟩)
    · exact .inl ⟨.inr (.inl ⟨rest, ha⟩), hb, p, hp, by simpa [State.afterTurn, ha] using hc⟩
  · rename_i m rest ha
    split at h
    · rename_i hm
      obtain ⟨rfl, hb⟩ := hm
      rcases engineTurn_cases h with ⟨hb', rfl⟩ | ⟨hb, p, hp, hc⟩
      · rw [hb] at hb'; cases hb'
      · exact .inl ⟨.inr (.inr ⟨rest, ha⟩), hb, p, hp, by simpa [State.afterTurn, ha] using hc⟩
    · exact .inr (.inr ⟨m, rest, ha, h⟩)

end Sys2Proof.Machine
end

