-- ==== Sys2Proof/Machine/Program.lean ====
section
/-!
DEFINITION. Host programs (30_encoding.md rule R99) and the pseudo-instructions' exact expansions (rule
R100), for a block with parameters `p`. An expected value (`rd REG -> v`) is a remark of the program text;
the value read is recorded in `State.seen`.
-/

namespace Sys2Proof.Machine

/-- `wr REG, v`. -/
def wr (p : Params) (reg : Reg) (v : Word) : HostMove := .write32 (p.blockBase + reg.offset) v

/-- `rd REG`. -/
def rd (p : Params) (reg : Reg) : HostMove := .read32 (p.blockBase + reg.offset)

/-- `wrb a, b`. -/
def wrb (p : Params) (a : Nat) (b : Byte) : HostMove := .write8 (p.blockBase + p.bufBase + a) b

/-- `rdb a`. -/
def rdb (p : Params) (a : Nat) : HostMove := .read8 (p.blockBase + p.bufBase + a)

/-- `init a, n`. -/
def initProgram (p : Params) (a n : Word) : List HostMove :=
  [wr p .arg0 a, wr p .arg1 n, wr p .cmd 0x00000001, .wait]

/-- `decb v`. -/
def decbProgram (p : Params) (v : Word) : List HostMove :=
  [wr p .arg0 v, wr p .cmd 0x00000002, .wait]

/-- `decbuf s, d, n`. -/
def decbufProgram (p : Params) (s d n : Word) : List HostMove :=
  [wr p .arg0 s, wr p .arg1 d, wr p .arg2 n, wr p .cmd 0x00000003, .wait]

/-- `loadb a, [b0, ..., bk]`. -/
def loadbProgram (p : Params) (a : Nat) : List Byte → List HostMove
  | [] => []
  | b :: bs => wrb p a b :: loadbProgram p (a + 1) bs

/-- `loads a, "text"`: the ASCII codes of the text, in order. DESIGN CHOICE, unsafe (log 14): rule R100 gives
no code to a character outside ASCII; here it is the character's code point modulo 256. -/
def loadsProgram (p : Params) (a : Nat) (text : String) : List HostMove :=
  loadbProgram p a (text.toList.map fun c => BitVec.ofNat 8 c.toNat)

/-- `chk v`: read STATUS. -/
def chkProgram (p : Params) : List HostMove := [rd p .status]

/-- A host program as an agenda: the host's statements one after another, the engine moving at each
`wait`. -/
def programAgenda (moves : List HostMove) : List Turn := moves.map Turn.host

end Sys2Proof.Machine
end

