-- ==== Sys2Proof/Tests/Slice0.lean ====
section
/-!
SUPPORT. Tests. Expected values come from the spec: from the encoding of 30_encoding.md rules R93 and R94,
written out bit by bit, and from the vectors of 95_test_vectors.md, cited by their id. After them, one witness
for every statement with hypotheses: a concrete state and operands that meet all of them, at the edge of their
ranges where a statement has several clauses.
-/

namespace Sys2Proof.Tests

open Sys2Proof Sys2Proof.Machine

/-! ### Decoding: rules R93, R94, R97 -/

/-- RSV, bits [31:8], is 0; OP, bits [7:0], is 0000_0001. -/
theorem test_decode_init : decode 0b00000000_00000000_00000000_00000001 = .ok .init := by decide
/-- OP is 0000_0010. -/
theorem test_decode_decrypt_byte : decode 0b00000000_00000000_00000000_00000010 = .ok .decryptByte := by
  decide
/-- OP is 0000_0011. -/
theorem test_decode_decrypt_buf : decode 0b00000000_00000000_00000000_00000011 = .ok .decryptBuf := by
  decide
/-- RSV is not 0: its lowest bit, its highest bit. -/
theorem test_decode_rsv :
    decode 0b00000000_00000000_00000001_00000010 = .error .reservedBits ∧
    decode 0b10000000_00000000_00000000_00000001 = .error .reservedBits := by decide
/-- The reserved opcodes next to the three, and the last. -/
theorem test_decode_reserved_opcode :
    decode 0b00000000_00000000_00000000_00000000 = .error (.reservedOpcode 0) ∧
    decode 0b00000000_00000000_00000000_00000100 = .error (.reservedOpcode 4) ∧
    decode 0b00000000_00000000_00000000_11111111 = .error (.reservedOpcode 255) := by decide
/-- The encoder writes the words of rule R94. -/
theorem test_encode : encode .init = 0x00000001 ∧ encode .decryptByte = 0x00000002 ∧
    encode .decryptBuf = 0x00000003 := by decide
/-- The three rows of the opcode table, and a value that is no row. -/
theorem test_decode_table_word : decodeTableWord 32 1 = some .init ∧
    decodeTableWord 32 2 = some .decryptByte ∧ decodeTableWord 32 3 = some .decryptBuf ∧
    decodeTableWord 32 0x102 = none ∧ decodeTableWord 64 (2 ^ 32 + 1) = none := by decide

/-! ### Well-formedness: an ill-formed term for each check -/

/-- Rule R97: RSV not 0; OP 0x00; OP 0x04. -/
theorem test_illegal_words : ¬ LegalWord 0x00000101 ∧ ¬ LegalWord 0x00000000 ∧ ¬ LegalWord 0x00000004 := by
  decide
theorem test_legal_words : LegalWord 0x00000001 ∧ LegalWord 0x00000002 ∧ LegalWord 0x00000003 := by decide
/-- No instruction is ill-formed: none has an operand. -/
theorem test_every_instr_wf : Instr.init.wf = true ∧ Instr.decryptByte.wf = true ∧
    Instr.decryptBuf.wf = true := by decide
/-- Rule R8: MEM_SIZE 0 and 2^32 + 1, BUF_BASE no multiple of 4 and below 0x40 are refused. -/
theorem test_illegal_params : ¬ Params.Legal ⟨0, 0x40, 0⟩ ∧ ¬ Params.Legal ⟨2 ^ 32 + 1, 0x40, 0⟩ ∧
    ¬ Params.Legal ⟨1, 0x42, 0⟩ ∧ ¬ Params.Legal ⟨1, 0x3C, 0⟩ := by decide
theorem test_legal_params : Params.Legal ⟨1, 0x40, 0⟩ ∧ Params.Legal ⟨2 ^ 32, 0x44, 7⟩ := by decide
/-- Addresses that do not rise are not canonical. -/
theorem test_memory_wf : ¬ Memory.Wf [(1, 0), (1, 2)] ∧ Memory.Wf [(0, 0), (1, 2)] := by decide

/-! ### Pure functions: 95_test_vectors.md -/

/-- C3, C5, C6. -/
theorem test_crc_step : crcStep 0x00 0xFFFFFFFF = 0x2DFD1072 ∧ crcStep 0x74 0x12345678 = 0x09A4787D ∧
    crcStep 0x80 0 = 0xEDB88320 := by decide
/-- U5: both the addition and the product wrap. -/
theorem test_update_keys : updateKeys ⟨0xFFFFFFFF, 0xFFFFFFFF, 0xFFFFFFFF⟩ 0xFF =
    ⟨0x00FFFFFF, 0xF872FCF7, 0x9E9B6A5C⟩ := by decide
/-- M6, M8, M10. -/
theorem test_keystream_byte : keystreamByte 0x000005E8 = 0xFF ∧ keystreamByte 0x5DED1E32 = 0xDF ∧
    keystreamByte 0x0000FFFF = 0x00 := by decide
/-- I3, "password". -/
theorem test_init_keys : initKeys [0x70, 0x61, 0x73, 0x73, 0x77, 0x6F, 0x72, 0x64] =
    ⟨0xEA9B4E4D, 0xBA789085, 0x5FF8707D⟩ := by decide
/-- D6. -/
theorem test_decrypt_byte : decryptByte ⟨0x7712F9DE, 0x485AFD7B, 0x5DED1E32⟩ 0xFF =
    (0x20, ⟨0x5A72CDE2, 0x2FD6EBD2, 0x635B81C7⟩) := by decide

/-! ### One step on a small state -/

/-- A block of 8 bytes of BUF at window offset 0x40 and platform address 0x100. -/
def params : Params := { memSize := 8, bufBase := 0x40, blockBase := 0x100 }

/-- The keys of the password "test" (vector I1). -/
def testKeys : KeyState := { key0 := 0x7712F9DE, key1 := 0x485AFD7B, key2 := 0x5DED1E32 }

/-- BUF holds "test" and the first four bytes of the reference ciphertext (section 2.6). -/
def bytes : Memory :=
  [(0, 0x74), (1, 0x65), (2, 0x73), (3, 0x74), (4, 0x97), (5, 0xD3), (6, 0xA1), (7, 0x85)]

/-- UNINIT and idle, with those bytes. -/
def fresh : State := { State.resetWith params with buf := bytes }

/-- POSITIONED with the keys of "test", idle. -/
def ready : State := { fresh with keys := testKeys, phase := .positioned, pos := some 0 }

/-- `s` with a command pending. -/
def pending (s : State) (w a b c : Word) : State := { s with busy := true, pend := some ⟨w, a, b, c⟩ }

/-- `s` with an agenda. -/
def plan (s : State) (turns : List Turn) : State := { s with agenda := turns }

/-- What the next state holds under `f`. -/
def after {α : Type} (f : State → α) (r : Host.Outcome State Fault Refusal) : Option α :=
  match r with
  | .next t => some (f t)
  | .fault _ => none
  | .refused _ => none

/-- I1: INIT of BUF[0 .. 3] = "test". -/
theorem test_init : after (fun t => (t.keys, t.statusWord, t.pos)) (step (pending fresh 1 0 4 0)) =
    some (testKeys, 0x00000002, some 0) := by decide
/-- E6: one byte past BUF; the block stays in UNINIT. -/
theorem test_init_range : after (fun t => (t.statusWord, t.pos)) (step (pending fresh 1 7 2 0)) =
    some (0x00000200, none) := by decide
/-- D5 as a command: RESULT is the zero-extended plaintext. -/
theorem test_decrypt_byte_command :
    after (fun t => (t.result, t.keys, t.statusWord)) (step (pending ready 2 0 0 0)) =
    some (0x000000DF, ⟨0x7770226F, 0x94039D93, 0x3FE8EBC3⟩, 0x00000002) := by decide
/-- D12: bits [31:8] of the value are checked, not masked off. -/
theorem test_decrypt_byte_range : after (fun t => (t.result, t.statusWord)) (step (pending ready 2 0x1AB 0 0)) =
    some (0, 0x00000102) := by decide
/-- B6, on four bytes: adjacent ranges; the trace of section 2.6 after k = 3. -/
theorem test_decrypt_buf :
    after (fun t => (t.buf, t.keys, t.pos, t.result)) (step (pending ready 3 4 0 4)) =
    some ([(0, 0x48), (1, 0x65), (2, 0x6C), (3, 0x6C), (4, 0x97), (5, 0xD3), (6, 0xA1), (7, 0x85)],
      ⟨0x57FB6278, 0x82272C7C, 0x93177BA0⟩, some 4, 0) := by decide
/-- B9, on four bytes: one byte of overlap. -/
theorem test_decrypt_buf_overlap :
    after (fun t => (t.buf, t.statusWord)) (step (pending ready 3 4 1 4)) = some (bytes, 0x00000202) := by
  decide
/-- E2: RSV not 0. -/
theorem test_illegal_command : after State.statusWord (step (pending ready 0x102 0 0 0)) =
    some 0x00000502 := by decide

/-- Each row of the opcode table, placed at reset: INIT of an empty password gives the IV (I0); from UNINIT both
decrypt commands raise SEQUENCE (section 2.5, E5). -/
theorem test_placed :
    after (fun t => (t.keys, t.statusWord)) (step (State.reset.withFetchWord 32 1)) =
      some (⟨0x12345678, 0x23456789, 0x34567890⟩, 0x00000002) ∧
    after State.statusWord (step (State.reset.withFetchWord 32 2)) = some 0x00000400 ∧
    after State.statusWord (step (State.reset.withFetchWord 32 3)) = some 0x00000400 := by decide
/-- Rule R100: the pseudo-instruction `decb 0x97` writes ARG0, then CMD, then waits. -/
theorem test_decb : decbProgram params 0x97 =
    [.write32 0x104 0x97, .write32 0x100 2, .wait] := by decide

/-! ### Witnesses: states and operands that meet the hypotheses of the statements -/

/-- For DecodeReadsOpAndRsvOnly: a pending illegal word on each edge, 0, 4, 255 and 256. -/
theorem test_witness_illegal_word :
    ¬ LegalWord 0 ∧ ¬ LegalWord 4 ∧ ¬ LegalWord 255 ∧ ¬ LegalWord 256 ∧
    (pending ready 256 0 0 0).pend = some ⟨256, 0, 0, 0⟩ := by decide

/-- For StepRunsTheDecodedCommand and IssuedCommandsComplete: the engine's turn, a polling host, a host that is
done. -/
theorem test_witness_engine_next :
    (plan (pending ready 2 0 0 0) [.engine]).EngineNext ∧
    (plan (pending ready 2 0 0 0) [.host .wait]).EngineNext ∧ (pending ready 2 0 0 0).EngineNext ∧
    (pending ready 2 0 0 0).busy = true ∧ (pending ready 2 0 0 0).pend = some ⟨2, 0, 0, 0⟩ ∧
    decode 2 = .ok .decryptByte ∧ Instr.decryptByte.wf = true :=
  ⟨.inr (.inl ⟨[], rfl⟩), .inr (.inr ⟨[], rfl⟩), .inl rfl, rfl, rfl, by decide, rfl⟩

/-- For StepRunsAPlacedCommand: the three words. -/
theorem test_witness_table_word : decodeTableWord 32 1 = some .init ∧
    decodeTableWord 32 2 = some .decryptByte ∧ decodeTableWord 32 3 = some .decryptBuf := by decide

/-- For TurnsFollowTheAgenda: a host move with BUSY = 1 and a wait with BUSY = 0. -/
theorem test_witness_turns :
    (plan (pending ready 2 0 0 0) [.host .reset]).agenda = [.host .reset] ∧
    (HostMove.reset = .wait → (pending ready 2 0 0 0).busy = false) ∧
    (plan ready [.host .wait]).agenda = [.host .wait] ∧ ready.busy = false ∧ ready.agenda = [] ∧
    (plan ready [.engine]).agenda = [.engine] := by decide

/-- The XOR of the table's entries at the powers of two that `a` is the sum of. -/
def spanned (a : Byte) : Word :=
  (List.range 8).foldl (fun v k => v ^^^ if a.getLsbD k then crcTable ((1 : Byte) <<< k) else 0) 0

/-- For CrcTableAndStepProperties (c): a linear function that agrees with the table at the powers of two. -/
theorem test_witness_linear : (∀ a b : Byte, spanned (a ^^^ b) = spanned a ^^^ spanned b) ∧
    ∀ k, k < 8 → spanned ((1 : Byte) <<< k) = crcTable ((1 : Byte) <<< k) := by
  refine ⟨fun a b => ?_, by decide⟩
  have term : ∀ (k : Nat) (c : Word), (if (a ^^^ b).getLsbD k then c else 0) =
      (if a.getLsbD k then c else 0) ^^^ (if b.getLsbD k then c else 0) := by
    intro k c
    rw [BitVec.getLsbD_xor]
    cases a.getLsbD k <;> cases b.getLsbD k <;> simp
  simp only [spanned, List.range, List.range.loop, List.foldl_cons, List.foldl_nil, term]
  ac_rfl

/-- For KeystreamByteProperties (b): two words equal in bits [15:2] only. -/
theorem test_witness_same_mask_bits :
    (0xABCD05E8 : Word).extractLsb' 2 14 = (0x000005EB : Word).extractLsb' 2 14 := by decide

/-- For DecryptByteFeedsThePlaintextBack and DecryptInvertsEncrypt: a state with mask 0, and an encryption. -/
theorem test_witness_cipher : keystreamByte (⟨1, 2, 0xFFFF0000⟩ : KeyState).key2 = 0 ∧
    encryptByte testKeys 0x48 = (0x97, ⟨0x191B2488, 0x5CD88210, 0xAA57A141⟩) := by decide

/-- For BufferDecryptorProperties (e): equal states and equal sequences. -/
theorem test_witness_equal_inputs : testKeys = initKeys [0x74, 0x65, 0x73, 0x74] ∧
    [(0x97 : Byte)] = [0x97] := by decide

/-- For InitConstructsAHandle: a range that ends at MEM_SIZE and holds the password, an empty one past it, and
one byte too many. -/
theorem test_witness_init :
    (pending fresh 1 4 4 0).pend = some ⟨1, 4, 4, 0⟩ ∧ (4 : Word).toNat + (4 : Word).toNat ≤ params.memSize ∧
    (∀ k, k < 4 → (pending fresh 1 4 4 0).bufByte (4 + k) = [0x97, 0xD3, 0xA1, 0x85].getD k 0) ∧
    (pending fresh 1 9 0 0).pend = some ⟨1, 9, 0, 0⟩ ∧ (0 : Word) = 0 ∧
    (pending fresh 1 4 5 0).pend = some ⟨1, 4, 5, 0⟩ ∧ (5 : Word) ≠ 0 ∧
    params.memSize < (4 : Word).toNat + (5 : Word).toNat := by decide

/-- For DecryptByteDecryptsOneByte: UNINIT, and the values 255 and 256 in POSITIONED. -/
theorem test_witness_decrypt_byte :
    (pending fresh 2 0 0 0).phase = .uninit ∧ (pending ready 2 255 0 0).phase = .positioned ∧
    (pending ready 2 255 0 0).pend = some ⟨2, 255, 0, 0⟩ ∧ (255 : Word).toNat < 256 ∧
    256 ≤ (256 : Word).toNat := by decide

/-- For DecryptBufDecryptsTheRange, DecryptBufReadsOnlyTheSourceRange and DecryptBufEqualsByteCommands: source
below destination, above it, and the same range, each up to MEM_SIZE. -/
theorem test_witness_decrypt_buf :
    (pending ready 3 0 4 4).pend = some ⟨3, 0, 4, 4⟩ ∧ (pending ready 3 0 4 4).phase = .positioned ∧
    (4 : Word) ≠ 0 ∧ (4 : Word).toNat + (4 : Word).toNat ≤ params.memSize ∧
    (0 : Word).toNat + (4 : Word).toNat ≤ (4 : Word).toNat ∧ (4 : Word) = 4 := by decide

/-- For DecryptBufReadsOnlyTheSourceRange: two states that differ outside the source range. -/
theorem test_witness_agree_on_source :
    (pending ready 3 0 4 4).AgreeOn (pending (ready.setBuf (Memory.write bytes 5 0)) 3 0 4 4) 0 4 ∧
    (pending ready 3 0 4 4).keys = (pending (ready.setBuf (Memory.write bytes 5 0)) 3 0 4 4).keys ∧
    (pending ready 3 0 4 4).bufByte 5 ≠
      (pending (ready.setBuf (Memory.write bytes 5 0)) 3 0 4 4).bufByte 5 := by
  refine ⟨?_, rfl, by decide⟩
  unfold State.AgreeOn; decide

/-- For DecryptBufChecksInOrder: UNINIT; length 0; the source, then the destination one byte past BUF; two
ranges that share one byte, in either order. -/
theorem test_witness_checks :
    (pending fresh 3 0 4 0).phase = .uninit ∧ (pending ready 3 0 4 0).phase = .positioned ∧ (0 : Word) = 0 ∧
    params.memSize < (5 : Word).toNat + (4 : Word).toNat ∧
    (0 : Word).toNat + (4 : Word).toNat ≤ params.memSize ∧
    (0 : Word) ≠ 3 ∧ (0 : Word).toNat < (3 : Word).toNat + (4 : Word).toNat ∧
    (3 : Word).toNat < (0 : Word).toNat + (4 : Word).toNat ∧ (4 : Word) ≠ 0 := by decide

/-- For OneErrorInPriorityOrder: a pending word. -/
theorem test_witness_pending : (pending fresh 3 0 0 0).pend = some ⟨3, 0, 0, 0⟩ := by decide

/-- For ErrorsArePrecise and ErrorsDoNotPersist: a completion that ends with a nonzero ERR. -/
theorem test_witness_error :
    completeWord 2 (pending ready 2 256 0 0) =
      .next { ready with err := .range, errLog := [.range] } ∧ ErrCode.range ≠ .ok :=
  ⟨rfl, by decide⟩

/-- For IssuedCommandsComplete: BUSY = 1 and a host move other than reset that is performed. -/
theorem test_witness_busy_move :
    (pending ready 2 0 0 0).busy = true ∧ (pending ready 2 0 0 0).pend.isSome = true ∧
    HostMove.write32 0x104 9 ≠ .reset ∧
    hostMove (.write32 0x104 9) (pending ready 2 0 0 0) = .next { pending ready 2 0 0 0 with arg0 := 9 } :=
  ⟨rfl, rfl, by decide, rfl⟩

/-- For CommandCompletesWithinTheAgenda: the host reads STATUS and waits while the command is pending. -/
theorem test_witness_agenda :
    Turn.host .reset ∉ (plan (pending ready 1 0 0 0) [.host (.read32 0x114), .host .wait]).agenda ∧
    State.steps 3 (plan (pending ready 1 0 0 0) [.host (.read32 0x114), .host .wait]) =
      .next { ready with keys := KeyState.iv, seen := [.word 0x00000003] } := ⟨by decide, rfl⟩

/-- For CommandCompletesWithinTheAgenda: the completion is the step after the agenda is used up. -/
theorem test_witness_agenda_used_up :
    Turn.host .reset ∉ (plan (pending ready 1 0 0 0) [.host (.read32 0x114)]).agenda ∧
    after (fun t => (t.busy, t.agenda)) (State.steps 1 (plan (pending ready 1 0 0 0) [.host (.read32 0x114)])) =
      some (true, []) ∧
    State.steps 2 (plan (pending ready 1 0 0 0) [.host (.read32 0x114)]) =
      .next { ready with keys := KeyState.iv, seen := [.word 0x00000003] } := ⟨by decide, by decide, rfl⟩

/-- For the statements on legal parameters and BUSY = 0 or 1: both blocks, and the edge offsets of the reserved
space. -/
theorem test_witness_legal : ready.params.Legal ∧ ready.busy = false ∧
    (pending ready 3 0 4 4).params.Legal ∧ (pending ready 3 0 4 4).busy = true ∧
    (pending ready 3 0 4 4).pend = some ⟨3, 0, 4, 4⟩ ∧
    0x24 < params.bufBase ∧ 0x24 % 4 = 0 ∧ params.bufBase - 4 < params.bufBase ∧
    (params.bufBase - 4) % 4 = 0 ∧ 0x10 ≤ params.bufBase - 4 := by decide

/-- For BusyReads: BUF bytes next to and inside the destination range, and a command that is no DECRYPT_BUF. -/
theorem test_witness_busy_reads : 3 < params.memSize ∧ 3 < (4 : Word).toNat ∧
    (2 : Word).toNat + (4 : Word).toNat ≤ 6 ∧ 6 < params.memSize ∧ (1 : Word) ≠ 3 ∧
    ¬ (5 < (4 : Word).toNat ∨ (4 : Word).toNat + (4 : Word).toNat ≤ 5) := by decide

/-- For ArgWritesDoNotReachAnIssuedCommand: a command that completes. -/
theorem test_witness_exec : exec .init (pending ready 1 0 0 0) = .next { ready with keys := KeyState.iv } :=
  rfl

/-- For BufWindowReadsWhatWasWritten and ReadsHaveNoSideEffect: the last byte of BUF. -/
theorem test_witness_last_byte : 7 < params.memSize ∧ ready.busy = false ∧
    hostMove (.read8 0x147) ready = .next { ready with seen := [.byte 0x85] } ∧
    hostMove (.read32 0x118) ready = .next { ready with seen := [.word 0x7712F9DE] } :=
  ⟨by decide, rfl, rfl, rfl⟩

/-- For OutsideAccessesAreRefused: the last address below the window, the first past BUF, both ends of BUF, and
both ends of the register space, the last of them not aligned. -/
theorem test_witness_outside : 0xFF < params.blockBase ∧
    params.blockBase + params.bufBase + params.memSize ≤ 0x148 ∧
    params.blockBase + params.bufBase ≤ 0x140 ∧ 0x147 < params.blockBase + params.bufBase + params.memSize ∧
    0 < params.memSize ∧ params.blockBase ≤ 0x100 ∧ 0x13F < params.blockBase + params.bufBase ∧
    (0x13F - params.blockBase) % 4 ≠ 0 := by decide

/-- For BrokenHostDutiesAreRefused: the first and last byte of each pending range, and the byte after. -/
theorem test_witness_pending_range :
    (pending ready 1 1 4 0).InPendingRange 1 ∧ (pending ready 1 1 4 0).InPendingRange 4 ∧
    ¬ (pending ready 1 1 4 0).InPendingRange 5 ∧ (pending ready 3 0 4 2).InPendingRange 1 ∧
    (pending ready 3 0 4 2).InPendingRange 5 ∧ ¬ (pending ready 3 0 4 2).InPendingRange 2 ∧
    ¬ (pending ready 2 0 4 2).InPendingRange 0 := by
  refine ⟨⟨_, rfl, by decide⟩, ⟨_, rfl, by decide⟩, ?_, ⟨_, rfl, by decide⟩, ⟨_, rfl, by decide⟩, ?_, ?_⟩ <;>
  · rintro ⟨p, hp, h⟩
    cases hp
    exact absurd h (by decide)

/-- For HostMovesAreExactlyThoseOfTheTable: a move that is enabled and one that is not. -/
theorem test_witness_enabled : ready.Enabled (.write32 0x100 1) ∧
    ¬ (pending ready 2 0 0 0).Enabled (.write32 0x100 1) :=
  ⟨⟨⟨0, rfl, by decide, rfl⟩, fun _ => rfl⟩, fun h => absurd (h.2 rfl) (by decide)⟩

/-- For ResetMeetsTheInvariant, StepKeepsTheInvariant and OnlyDisabledHostMovesStopARun: states that meet the
invariant, idle and busy, UNINIT and POSITIONED. -/
theorem test_witness_inv : fresh.Inv ∧ ready.Inv ∧ (pending fresh 1 0 4 0).Inv ∧ (pending ready 3 4 0 4).Inv :=
  ⟨by decide, by decide, by decide, by decide⟩

/-- For StepKeepsTheInvariant: a step from one of them. -/
theorem test_witness_step : step (pending ready 1 0 0 0) = .next { ready with keys := KeyState.iv } := rfl

/-- For OnlyDisabledHostMovesStopARun: a step that is refused. -/
theorem test_witness_refused :
    (plan (pending ready 2 0 0 0) [.host (.write32 0x100 1)]).Inv ∧
    step (plan (pending ready 2 0 0 0) [.host (.write32 0x100 1)]) = .refused .commandWhileBusy :=
  ⟨by decide, rfl⟩

/-- For OnlyCompletionsAndResetWriteTheKeys and OnlyInitAndResetWritePhase: an INIT and a reset. -/
theorem test_witness_keys_change :
    after (fun t => t.keys = ready.keys) (step (pending ready 1 0 0 0)) = some False ∧
    after (fun t => t.keys = ready.keys) (step (plan ready [.host .reset])) = some False ∧
    after (fun t => t.phase = fresh.phase) (step (pending fresh 1 0 0 0)) = some False ∧
    after (fun t => t.phase = ready.phase) (step (plan ready [.host .reset])) = some False :=
  ⟨congrArg some (eq_false (by decide)), congrArg some (eq_false (by decide)),
    congrArg some (eq_false (by decide)), congrArg some (eq_false (by decide))⟩

/-- For OnlyDecryptByteAndResetWriteResult: a DECRYPT_BYTE. -/
theorem test_witness_result_changes :
    after State.result (step (pending ready 2 0 0 0)) = some 0xDF ∧ ready.result ≠ 0xDF := by decide

/-- For BufChangesOnlyByHostOrDecryptBuf: a DECRYPT_BUF and a host write. -/
theorem test_witness_buf_changes :
    after (fun t => t.bufByte 4) (step (pending ready 3 4 4 1)) = some 0x48 ∧
    after (fun t => t.bufByte 4) (step (plan ready [.host (.write8 0x144 0x11)])) = some 0x11 ∧
    ready.bufByte 4 = 0x97 := by decide

/-- For ArgAndPendChangeOnlyByTheirWriters and ParametersNeverChange: an ARG write, an issue, a completion, none
of them at a reset. -/
theorem test_witness_arg_and_pend :
    after State.arg2 (step (plan ready [.host (.write32 0x10C 5)])) = some 5 ∧
    after (fun t => (t.busy, t.pend)) (step (plan ready [.host (.write32 0x100 2)])) =
      some (true, some ⟨2, 0, 0, 0⟩) ∧
    after State.pend (step (pending ready 2 0 0 0)) = some none ∧
    ¬ (plan ready [.host (.write32 0x10C 5)]).ResetNext ∧ ¬ (pending ready 2 0 0 0).ResetNext := by
  refine ⟨by decide, by decide, by decide, ?_, ?_⟩
  · rintro ⟨rest, h⟩; exact absurd (List.cons.inj h).1 (by decide)
  · rintro ⟨rest, h⟩; cases h

/-- For InitReadsOnlyThePasswordRange: two states that agree on the password range only. -/
theorem test_witness_agree_on_password :
    (pending fresh 1 0 4 0).AgreeOn (pending (ready.setBuf (Memory.write bytes 4 0)) 1 0 4 0) 0 4 ∧
    fresh.params.memSize = ready.params.memSize ∧ (0 : Word).toNat + (4 : Word).toNat ≤ params.memSize ∧
    fresh.keys ≠ ready.keys := by
  refine ⟨?_, rfl, by decide, by decide⟩
  unfold State.AgreeOn; decide

/-- For DecryptByteTouchesNoMemory: a DECRYPT_BYTE that completes. -/
theorem test_witness_decrypt_byte_completes :
    after State.result (exec .decryptByte (pending ready 2 255 0 0)) = some 0x20 := by decide

end Sys2Proof.Tests
end

section
/-!
SUPPORT. Proofs of the family 00_scope.md: who moves in a step (rule R14), and the implementation parameters
(rule R8).
-/

namespace Sys2Proof.Machine

/-- At BUSY = 0 the engine idles, and the state survives (rule R220; log 13). -/
theorem engineTurn_idle {s : State} (hb : s.busy = false) : engineTurn s = .next s := by
  simp [engineTurn, hb]

theorem step_agenda_nil {s : State} (ha : s.agenda = []) : step s = engineTurn s := by
  simp [step, takeTurn, ha]

theorem step_agenda_engine {s : State} {rest : List Turn} (ha : s.agenda = .engine :: rest) :
    step s = engineTurn (s.setAgenda rest) := by
  simp [step, takeTurn, ha]

/-- A host statement is performed unless it is a `wait` to be read again (rule R99). -/
theorem step_agenda_host {s : State} {m : HostMove} {rest : List Turn} (ha : s.agenda = .host m :: rest)
    (hw : m = .wait → s.busy = false) : step s = hostMove m (s.setAgenda rest) := by
  have performed : ¬ (m = .wait ∧ s.busy = true) := fun ⟨hm, hb⟩ => by simp [hw hm] at hb
  simp [step, takeTurn, ha, performed]

/-- Settles O7: each kind of agenda head has its own equation for `step`. -/
theorem turnsFollowTheAgenda : Obligations.TurnsFollowTheAgenda := by
  refine ⟨fun s m rest ha hw => step_agenda_host ha hw, fun s hb ha => ?_, fun s rest hb ha => ?_,
    fun s rest hb ha => step_agenda_host ha fun _ => hb⟩
  · rw [step_agenda_nil ha, engineTurn_idle hb]
  · rw [step_agenda_engine ha]
    exact engineTurn_idle hb

theorem hostMove_params {m : HostMove} {s t : State} (h : hostMove m s = .next t) :
    t.params = s.params := by
  obtain ⟨v, -, -, rfl⟩ | ⟨v, -, rfl⟩ | ⟨v, -, rfl⟩ | ⟨v, -, rfl⟩ | ⟨-, rfl⟩ | ⟨a, b, -, -, -, rfl⟩ |
    ⟨-, v, rfl⟩ | ⟨-, rfl⟩ | ⟨-, rfl⟩ := hostMove_cases h <;> rfl

theorem completeWord_params {w : Word} {s t : State} (h : completeWord w s = .next t) :
    t.params = s.params := (completeWord_keeps h).1

@[simp] theorem State.afterTurn_params (s : State) : s.afterTurn.params = s.params := by
  obtain ⟨ts, h⟩ := afterTurn_eq s
  rw [h, State.setAgenda_params]

/-- Settles O49: neither a completion, nor a turn taken off the agenda, nor a host move (reset among
them) writes the parameters. -/
theorem parametersNeverChange : Obligations.ParametersNeverChange := by
  intro s t h
  obtain ⟨-, -, p, -, completed⟩ | ⟨-, ts, rfl⟩ | ⟨m, rest, -, moved⟩ := step_cases h
  · rw [completeWord_params completed, State.afterTurn_params]
  · exact State.setAgenda_params s ts
  · rw [hostMove_params moved, State.setAgenda_params]

end Sys2Proof.Machine
end

section
/-!
SUPPORT. Proofs of the family 10_state.md, part 1: which word completes as which command, and the invariant of
the block's state, kept by every named update and so by every step.
-/

namespace Sys2Proof.Machine

/-- A command word is its two fields (rule R93). -/
theorem rsvField_append_opField (w : Word) : rsvField w ++ opField w = w := by
  rw [rsvField, opField, BitVec.extractLsb'_append_extractLsb'_eq_extractLsb' (by rfl),
    BitVec.extractLsb'_eq_self]

/-- The decoder accepts no word but a command's own (rule R97). -/
theorem decode_eq_ok {w : Word} {i : Instr} (h : decode w = .ok i) : w = encode i := by
  rw [← rsvField_append_opField w]
  unfold decode at h
  split at h
  · cases h
  · rename_i rsv
    rw [not_not.mp rsv]
    repeat' split at h
    all_goals cases h
    all_goals rename_i op; rw [op]; rfl

/-- All that the completion of a word can do (rule R203 (2)): a command's success under its own word, or an
error. -/
theorem completeWord_cases {w : Word} {s t : State} (h : completeWord w s = .next t) :
    ∃ p, s.pend = some p ∧
      ((w = 0x00000001 ∧ validRange s.params.memSize p.pwBase p.pwLen = true ∧
          t = ((s.setKeys (initLoop s p.pwBase.toNat KeyState.iv p.pwLen.toNat)).startStream).succeed) ∨
        (w = 0x00000002 ∧ s.phase = .positioned ∧ p.value.toNat < 256 ∧
          t = (((s.setKeys (decryptByte s.keys (lowByte p.value)).2).setResult
                ((decryptByte s.keys (lowByte p.value)).1.setWidth 32)).advance 1).succeed) ∨
        (w = 0x00000003 ∧ s.phase = .positioned ∧ p.len = 0 ∧ t = s.succeed) ∨
        (w = 0x00000003 ∧ s.phase = .positioned ∧ p.len ≠ 0 ∧
          p.src.toNat + p.len.toNat ≤ s.params.memSize ∧ p.dst.toNat + p.len.toNat ≤ s.params.memSize ∧
          t = (((s.setKeys (decryptLoop s.resets p.src.toNat p.dst.toNat s.keys s.buf p.len.toNat).1).setBuf
                (decryptLoop s.resets p.src.toNat p.dst.toNat s.keys s.buf p.len.toNat).2).advance
                  p.len.toNat).succeed) ∨
        ∃ e, e ≠ .ok ∧ t = s.raise e) := by
  unfold completeWord at h
  split at h
  · rename_i i decoded
    obtain rfl := decode_eq_ok decoded
    cases i
    case init =>
      obtain ⟨p, hp, success | ht⟩ := execInit_cases h
      · exact ⟨p, hp, .inl ⟨rfl, success⟩⟩
      · exact ⟨p, hp, .inr (.inr (.inr (.inr ⟨.argument, by decide, ht⟩)))⟩
    case decryptByte =>
      obtain ⟨p, hp, success | error⟩ := execDecryptByte_cases h
      · exact ⟨p, hp, .inr (.inl ⟨rfl, success⟩)⟩
      · exact ⟨p, hp, .inr (.inr (.inr (.inr error)))⟩
    case decryptBuf =>
      obtain ⟨p, hp, empty | success | error⟩ := execDecryptBuf_cases h
      · exact ⟨p, hp, .inr (.inr (.inl ⟨rfl, empty⟩))⟩
      · exact ⟨p, hp, .inr (.inr (.inr (.inl ⟨rfl, success⟩)))⟩
      · exact ⟨p, hp, .inr (.inr (.inr (.inr error)))⟩
  · obtain ⟨p, hp, ht⟩ := completeWith_next h
    exact ⟨p, hp, .inr (.inr (.inr (.inr ⟨.illegal, by decide, ht⟩)))⟩

/-! ### The invariant and the named updates -/

/-- A byte written to RESULT leaves RESULT[31:8] = 0 (rule R29). -/
theorem upper_zero_of_byte (b : Byte) : (b.setWidth 32).extractLsb' 8 24 = 0 := by
  rw [upper_zero_iff, BitVec.toNat_setWidth]
  exact (Nat.mod_le _ _).trans_lt b.isLt

namespace State.Inv

variable {s : State} (h : s.Inv)
include h

theorem setAgenda (ts : List Turn) : (s.setAgenda ts).Inv := h

theorem observe (v : Observed) : (s.observe v).Inv := h

theorem setArg0 (v : Word) : (s.setArg0 v).Inv := h

theorem setArg1 (v : Word) : (s.setArg1 v).Inv := h

theorem setArg2 (v : Word) : (s.setArg2 v).Inv := h

theorem issue (w : Word) : (s.issue w).Inv := by
  obtain ⟨legal, wf, inside, -, pos, result, uninit, noOk, newest⟩ := h
  exact ⟨legal, wf, inside, rfl, pos, result, uninit, noOk, newest⟩

theorem setBuf {m : Memory} (wf : Memory.Wf m) (inside : ∀ c ∈ m, c.1 < s.params.memSize) :
    (s.setBuf m).Inv := by
  obtain ⟨legal, -, -, rest⟩ := h
  exact ⟨legal, wf, inside, rest⟩

theorem writeByte {a : Nat} (ha : a < s.params.memSize) (b : Byte) :
    (s.setBuf (Memory.write s.buf a b)).Inv := by
  have ⟨_, wf, inside, _⟩ := h
  refine h.setBuf (Memory.wf_write wf a b) fun c hc => ?_
  obtain rfl | hc := Memory.mem_write hc
  · exact ha
  · exact inside c hc

theorem startStream : s.startStream.Inv := by
  obtain ⟨legal, wf, inside, busy, -, result, -, log⟩ := h
  exact ⟨legal, wf, inside, busy, by simp, result, nofun, log⟩

theorem advance (n : Nat) : (s.advance n).Inv := by
  obtain ⟨legal, wf, inside, busy, pos, rest⟩ := h
  exact ⟨legal, wf, inside, busy, by simpa using pos, rest⟩

/-- Only in UNINIT does the invariant speak of the keys. -/
theorem setKeys (hph : s.phase = .positioned) (ks : KeyState) : (s.setKeys ks).Inv := by
  obtain ⟨legal, wf, inside, busy, pos, result, -, log⟩ := h
  exact ⟨legal, wf, inside, busy, pos, result, by simp [hph], log⟩

theorem setResult (hph : s.phase = .positioned) (b : Byte) : (s.setResult (b.setWidth 32)).Inv := by
  obtain ⟨legal, wf, inside, busy, pos, -, -, log⟩ := h
  exact ⟨legal, wf, inside, busy, pos, upper_zero_of_byte b, by simp [hph], log⟩

theorem succeed : s.succeed.Inv := by
  obtain ⟨legal, wf, inside, -, pos, result, uninit, noOk, -⟩ := h
  exact ⟨legal, wf, inside, rfl, pos, result, uninit, noOk, .inl rfl⟩

theorem raise {e : ErrCode} (he : e ≠ .ok) : (s.raise e).Inv := by
  obtain ⟨legal, wf, inside, -, pos, result, uninit, noOk, -⟩ := h
  exact ⟨legal, wf, inside, rfl, pos, result, uninit, by simp [he.symm, noOk], .inr rfl⟩

theorem hardReset : s.hardReset.Inv := by
  obtain ⟨legal, -, -, -, -, -, -, noOk, -⟩ := h
  exact ⟨legal, List.Pairwise.nil, nofun, rfl, by simp, by simp, fun _ => ⟨rfl, rfl⟩, noOk, .inl rfl⟩

end State.Inv

theorem State.resetWith_inv {p : Params} (legal : p.Legal) : (State.resetWith p).Inv :=
  ⟨legal, Memory.wf_reset p, nofun, rfl, by simp [State.resetWith], by simp [State.resetWith],
    fun _ => ⟨rfl, rfl⟩, nofun, .inl rfl⟩

/-- Settles O41: the reset values meet each clause of the invariant, for any legal parameters. -/
theorem resetMeetsTheInvariant : Obligations.ResetMeetsTheInvariant :=
  ⟨fun _ => State.resetWith_inv, State.resetWith_inv (by decide)⟩

/-! ### The invariant and the steps -/

theorem completeWord_keeps_inv {w : Word} {s t : State} (h : s.Inv) (completed : completeWord w s = .next t) :
    t.Inv := by
  obtain ⟨p, -, init | byte | empty | buf | ⟨e, he, rfl⟩⟩ := completeWord_cases completed
  · obtain ⟨-, -, rfl⟩ := init
    exact (h.startStream.setKeys rfl _).succeed
  · obtain ⟨-, hph, -, rfl⟩ := byte
    exact (((h.setKeys hph _).setResult (by exact hph) _).advance 1).succeed
  · obtain ⟨-, -, -, rfl⟩ := empty
    exact h.succeed
  · obtain ⟨-, hph, -, -, hdst, rfl⟩ := buf
    have ⟨_, wf, inside, _⟩ := h
    exact (((h.setBuf (decryptLoop_wf wf _ _ _ _ _)
      (decryptLoop_inside inside _ _ _ _ _ hdst)).setKeys (by exact hph) _).advance _).succeed
  · exact h.raise he

theorem hostMove_keeps_inv {m : HostMove} {s t : State} (h : s.Inv) (moved : hostMove m s = .next t) :
    t.Inv := by
  obtain ⟨v, -, -, rfl⟩ | ⟨v, -, rfl⟩ | ⟨v, -, rfl⟩ | ⟨v, -, rfl⟩ | ⟨-, rfl⟩ | ⟨a, b, ha, -, -, rfl⟩ |
    ⟨-, v, rfl⟩ | ⟨-, rfl⟩ | ⟨-, rfl⟩ := hostMove_cases moved
  · exact h.issue v
  · exact h.setArg0 v
  · exact h.setArg1 v
  · exact h.setArg2 v
  · exact h
  · exact h.writeByte ha b
  · exact h.observe v
  · exact h
  · exact h.hardReset

/-- Settles O42: the invariant does not speak of the agenda, and both agents' moves keep it. -/
theorem stepKeepsTheInvariant : Obligations.StepKeepsTheInvariant := by
  intro s t h stepped
  obtain ⟨-, -, p, -, completed⟩ | ⟨-, ts, rfl⟩ | ⟨m, rest, -, moved⟩ := step_cases stepped
  · obtain ⟨ts, turn⟩ := afterTurn_eq s
    exact completeWord_keeps_inv (turn ▸ h.setAgenda ts) completed
  · exact h.setAgenda ts
  · exact hostMove_keeps_inv (h.setAgenda rest) moved

end Sys2Proof.Machine
end

section
/-!
SUPPORT. Proofs of the family 10_state.md, part 2: who writes each part of the state (rules R22, R28 to R30, R33,
R34).
-/

namespace Sys2Proof.Machine

/-- Only an INIT, a DECRYPT_BYTE or a DECRYPT_BUF that succeeds writes the keys, RESULT or PHASE, each its own
part. -/
theorem completeWord_cipher_registers {w : Word} {s t : State} (h : completeWord w s = .next t) :
    (t.keys = s.keys ∧ t.result = s.result ∧ t.phase = s.phase) ∨
    (t.err = .ok ∧ w = 0x00000001 ∧ t.result = s.result ∧ t.phase = .positioned) ∨
    (t.err = .ok ∧ w = 0x00000002 ∧ t.result.extractLsb' 8 24 = 0 ∧ t.phase = s.phase) ∨
    (t.err = .ok ∧ w = 0x00000003 ∧ t.result = s.result ∧ t.phase = s.phase) := by
  obtain ⟨p, -, ⟨hw, -, rfl⟩ | ⟨hw, -, -, rfl⟩ | ⟨-, -, -, rfl⟩ | ⟨hw, -, -, -, -, rfl⟩ | ⟨e, -, rfl⟩⟩ :=
    completeWord_cases h
  · exact .inr (.inl ⟨rfl, hw, rfl, rfl⟩)
  · exact .inr (.inr (.inl ⟨rfl, hw, upper_zero_of_byte _, rfl⟩))
  · exact .inl ⟨rfl, rfl, rfl⟩
  · exact .inr (.inr (.inr ⟨rfl, hw, rfl, rfl⟩))
  · exact .inl ⟨rfl, rfl, rfl⟩

/-- Of the host's moves only reset writes the keys, RESULT or PHASE. -/
theorem hostMove_cipher_registers {m : HostMove} {s t : State} (h : hostMove m s = .next t) :
    (t.keys = s.keys ∧ t.result = s.result ∧ t.phase = s.phase) ∨ (m = .reset ∧ t = s.hardReset) := by
  obtain ⟨v, -, -, rfl⟩ | ⟨v, -, rfl⟩ | ⟨v, -, rfl⟩ | ⟨v, -, rfl⟩ | ⟨-, rfl⟩ | ⟨a, b, -, -, -, rfl⟩ |
    ⟨-, v, rfl⟩ | ⟨-, rfl⟩ | reset := hostMove_cases h
  case inr.inr.inr.inr.inr.inr.inr.inr => exact .inr reset
  all_goals exact .inl ⟨rfl, rfl, rfl⟩

/-- All that a step can do to the keys, RESULT and PHASE (rules R22, R29, R30). -/
theorem step_cipher_registers {s t : State} (h : step s = .next t) :
    (t.keys = s.keys ∧ t.result = s.result ∧ t.phase = s.phase) ∨
    (s.ResetNext ∧ t.result = 0 ∧ t.phase = .uninit) ∨
    (t.err = .ok ∧ s.CompletesNext 0x00000001 ∧ t.result = s.result ∧ t.phase = .positioned) ∨
    (t.err = .ok ∧ s.CompletesNext 0x00000002 ∧ t.result.extractLsb' 8 24 = 0 ∧ t.phase = s.phase) ∨
    (t.err = .ok ∧ s.CompletesNext 0x00000003 ∧ t.result = s.result ∧ t.phase = s.phase) := by
  obtain ⟨hn, hb, p, hp, completed⟩ | ⟨-, ts, rfl⟩ | ⟨m, rest, ha, moved⟩ := step_cases h
  · obtain ⟨ts, turn⟩ := afterTurn_eq s
    rw [turn] at completed
    obtain same | ⟨ok, hw, written⟩ | ⟨ok, hw, written⟩ | ⟨ok, hw, written⟩ :=
      completeWord_cipher_registers completed
    · exact .inl same
    · exact .inr (.inr (.inl ⟨ok, ⟨hn, hb, p, hp, hw⟩, written⟩))
    · exact .inr (.inr (.inr (.inl ⟨ok, ⟨hn, hb, p, hp, hw⟩, written⟩)))
    · exact .inr (.inr (.inr (.inr ⟨ok, ⟨hn, hb, p, hp, hw⟩, written⟩)))
  · exact .inl ⟨rfl, rfl, rfl⟩
  · obtain same | ⟨rfl, rfl⟩ := hostMove_cipher_registers moved
    · exact .inl same
    · exact .inr (.inl ⟨⟨rest, ha⟩, rfl, rfl⟩)

/-- Settles O44: of the five things a step can do to the cipher's registers, one keeps the keys. -/
theorem onlyCompletionsAndResetWriteTheKeys : Obligations.OnlyCompletionsAndResetWriteTheKeys := by
  intro s t h changed
  obtain ⟨same, -⟩ | ⟨reset, -⟩ | ⟨ok, init, -⟩ | ⟨ok, byte, -⟩ | ⟨ok, buf, -⟩ := step_cipher_registers h
  · exact absurd same changed
  · exact .inl reset
  · exact .inr ⟨ok, .inl init⟩
  · exact .inr ⟨ok, .inr (.inl byte)⟩
  · exact .inr ⟨ok, .inr (.inr buf)⟩

/-- Settles O45: of the five things a step can do to the cipher's registers, three keep RESULT. -/
theorem onlyDecryptByteAndResetWriteResult : Obligations.OnlyDecryptByteAndResetWriteResult := by
  intro s t h changed
  obtain ⟨-, same, -⟩ | ⟨reset, zero, -⟩ | ⟨-, -, same, -⟩ | ⟨ok, byte, upper, -⟩ | ⟨-, -, same, -⟩ :=
    step_cipher_registers h
  · exact absurd same changed
  · exact .inl ⟨reset, zero⟩
  · exact absurd same changed
  · exact .inr ⟨ok, byte, upper⟩
  · exact absurd same changed

/-- Settles O46: of the five things a step can do to the cipher's registers, three keep PHASE. -/
theorem onlyInitAndResetWritePhase : Obligations.OnlyInitAndResetWritePhase := by
  intro s t h changed
  obtain ⟨-, -, same⟩ | ⟨reset, -, uninit⟩ | ⟨ok, init, -, positioned⟩ | ⟨-, -, -, same⟩ | ⟨-, -, -, same⟩ :=
    step_cipher_registers h
  · exact absurd same changed
  · exact .inl ⟨reset, uninit⟩
  · exact .inr ⟨ok, init, positioned⟩
  · exact absurd same changed
  · exact absurd same changed

/-! ### BUF -/

/-- The only completion that changes a BUF byte is a DECRYPT_BUF that succeeds, inside its destination range. -/
theorem completeWord_bufByte {w : Word} {s t : State} {a : Nat} (h : completeWord w s = .next t)
    (changed : t.bufByte a ≠ s.bufByte a) :
    t.err = .ok ∧ w = 0x00000003 ∧
      ∃ p, s.pend = some p ∧ p.a1.toNat ≤ a ∧ a < p.a1.toNat + p.a2.toNat := by
  obtain ⟨p, hp, ⟨-, -, rfl⟩ | ⟨-, -, -, rfl⟩ | ⟨-, -, -, rfl⟩ | ⟨hw, -, -, -, -, rfl⟩ | ⟨e, -, rfl⟩⟩ :=
    completeWord_cases h
  case inr.inr.inr.inl =>
    have inside : ¬ (a < p.dst.toNat ∨ p.dst.toNat + p.len.toNat ≤ a) := fun outside =>
      changed (decryptLoop_read_outside _ _ _ _ _ _ _ outside)
    simp only [Pend.dst, Pend.len, not_or, not_lt, not_le] at inside
    exact ⟨rfl, hw, p, hp, inside⟩
  all_goals exact absurd rfl changed

/-- Of the host's moves only reset and a write to the byte itself change a BUF byte. -/
theorem hostMove_bufByte {m : HostMove} {s t : State} {a : Nat} (h : hostMove m s = .next t)
    (changed : t.bufByte a ≠ s.bufByte a) :
    m = .reset ∨ ∃ b, m = .write8 (s.params.blockBase + s.params.bufBase + a) b := by
  obtain ⟨v, -, -, rfl⟩ | ⟨v, -, rfl⟩ | ⟨v, -, rfl⟩ | ⟨v, -, rfl⟩ | ⟨-, rfl⟩ | ⟨x, b, -, hm, -, rfl⟩ |
    ⟨-, v, rfl⟩ | ⟨-, rfl⟩ | ⟨hm, -⟩ := hostMove_cases h
  case inr.inr.inr.inr.inr.inl =>
    have written : a = x := by
      by_contra other
      exact changed (Memory.read_write_other other _ _ _)
    exact .inr ⟨b, written ▸ hm⟩
  case inr.inr.inr.inr.inr.inr.inr.inr => exact .inl hm
  all_goals exact absurd rfl changed

/-- Settles O47: a completion and a host move each say which bytes they change, and the agenda holds none. -/
theorem bufChangesOnlyByHostOrDecryptBuf : Obligations.BufChangesOnlyByHostOrDecryptBuf := by
  intro s t a h changed
  obtain ⟨hn, hb, p, hp, completed⟩ | ⟨-, ts, rfl⟩ | ⟨m, rest, ha, moved⟩ := step_cases h
  · obtain ⟨ts, turn⟩ := afterTurn_eq s
    rw [turn] at completed
    obtain ⟨ok, hw, destination⟩ := completeWord_bufByte completed changed
    exact .inr (.inr ⟨ok, ⟨hn, hb, p, hp, hw⟩, destination⟩)
  · exact absurd rfl changed
  · obtain rfl | ⟨b, rfl⟩ := hostMove_bufByte moved changed
    · exact .inl ⟨rest, ha⟩
    · exact .inr (.inl ⟨b, rest, ha⟩)

/-! ### ARG0 to ARG2 and PEND -/

/-- Of the host's moves other than reset only a write to an ARG register changes it, to the value written. -/
theorem hostMove_args {m : HostMove} {s t : State} (h : hostMove m s = .next t) (hm : m ≠ .reset) :
    (t.arg0 ≠ s.arg0 → m = .write32 (s.params.blockBase + 0x04) t.arg0) ∧
    (t.arg1 ≠ s.arg1 → m = .write32 (s.params.blockBase + 0x08) t.arg1) ∧
    (t.arg2 ≠ s.arg2 → m = .write32 (s.params.blockBase + 0x0C) t.arg2) := by
  obtain ⟨v, -, -, rfl⟩ | ⟨v, rfl, rfl⟩ | ⟨v, rfl, rfl⟩ | ⟨v, rfl, rfl⟩ | ⟨-, rfl⟩ | ⟨a, b, -, -, -, rfl⟩ |
    ⟨-, v, rfl⟩ | ⟨-, rfl⟩ | ⟨reset, -⟩ := hostMove_cases h
  case inr.inr.inr.inr.inr.inr.inr.inr => exact absurd reset hm
  all_goals simp

/-- Of the host's moves other than reset only a CMD write at BUSY = 0 changes BUSY or PEND. -/
theorem hostMove_pend {m : HostMove} {s t : State} (h : hostMove m s = .next t) (hm : m ≠ .reset) :
    (t.busy = s.busy ∧ t.pend = s.pend) ∨
    (s.busy = false ∧ ∃ w, m = .write32 s.params.blockBase w ∧ t = s.issue w) := by
  obtain ⟨v, hb, hm', ht⟩ | ⟨v, -, rfl⟩ | ⟨v, -, rfl⟩ | ⟨v, -, rfl⟩ | ⟨-, rfl⟩ | ⟨a, b, -, -, -, rfl⟩ |
    ⟨-, v, rfl⟩ | ⟨-, rfl⟩ | ⟨reset, -⟩ := hostMove_cases h
  case inl => exact .inr ⟨hb, v, hm', ht⟩
  case inr.inr.inr.inr.inr.inr.inr.inr => exact absurd reset hm
  all_goals exact .inl ⟨rfl, rfl⟩

/-- All that a step other than reset can do to ARG0 to ARG2 (rule R28). -/
theorem step_args {s t : State} (h : step s = .next t) (hr : ¬ s.ResetNext) :
    (t.arg0 ≠ s.arg0 → ∃ rest, s.agenda = .host (.write32 (s.params.blockBase + 0x04) t.arg0) :: rest) ∧
    (t.arg1 ≠ s.arg1 → ∃ rest, s.agenda = .host (.write32 (s.params.blockBase + 0x08) t.arg1) :: rest) ∧
    (t.arg2 ≠ s.arg2 → ∃ rest, s.agenda = .host (.write32 (s.params.blockBase + 0x0C) t.arg2) :: rest) := by
  obtain ⟨-, -, p, -, completed⟩ | ⟨-, ts, rfl⟩ | ⟨m, rest, ha, moved⟩ := step_cases h
  · obtain ⟨ts, turn⟩ := afterTurn_eq s
    rw [turn] at completed
    obtain ⟨-, arg0, arg1, arg2, -⟩ := completeWord_keeps completed
    exact ⟨absurd arg0, absurd arg1, absurd arg2⟩
  · exact ⟨absurd rfl, absurd rfl, absurd rfl⟩
  · obtain ⟨arg0, arg1, arg2⟩ := hostMove_args moved fun reset => hr ⟨rest, reset ▸ ha⟩
    exact ⟨fun changed => ⟨rest, arg0 changed ▸ ha⟩, fun changed => ⟨rest, arg1 changed ▸ ha⟩,
      fun changed => ⟨rest, arg2 changed ▸ ha⟩⟩

/-- All that a step other than reset can do to BUSY and PEND (rules R33, R203). -/
theorem step_pend {s t : State} (h : step s = .next t) (hr : ¬ s.ResetNext) :
    (t.busy = s.busy ∧ t.pend = s.pend) ∨
    (s.busy = true ∧ s.EngineNext ∧ t.pend = none ∧ t.busy = false) ∨
    (s.busy = false ∧ ∃ w rest, s.agenda = .host (.write32 s.params.blockBase w) :: rest ∧ t.busy = true ∧
      t.pend = some ⟨w, s.arg0, s.arg1, s.arg2⟩) := by
  obtain ⟨hn, hb, p, -, completed⟩ | ⟨-, ts, rfl⟩ | ⟨m, rest, ha, moved⟩ := step_cases h
  · obtain ⟨idle, empty⟩ := completeWord_ends completed
    exact .inr (.inl ⟨hb, hn, empty, idle⟩)
  · exact .inl ⟨rfl, rfl⟩
  · obtain same | ⟨hb, w, rfl, rfl⟩ := hostMove_pend moved fun reset => hr ⟨rest, reset ▸ ha⟩
    · exact .inl same
    · exact .inr (.inr ⟨hb, w, rest, ha, rfl, rfl⟩)

/-- Settles O48: the ARG clauses are `step_args`, and the clauses on BUSY and PEND tell apart the three things a
step can do to them. -/
theorem argAndPendChangeOnlyByTheirWriters : Obligations.ArgAndPendChangeOnlyByTheirWriters := by
  intro s t h hr
  obtain ⟨arg0, arg1, arg2⟩ := step_args h hr
  refine ⟨arg0, arg1, arg2, ?_⟩
  obtain ⟨busy, pend⟩ | ⟨hb, completion⟩ | ⟨hb, issue⟩ := step_pend h hr
  · simp +contextual [busy, pend]
  · simp [hb, completion]
  · simpa [hb] using fun _ => issue

end Sys2Proof.Machine
end

section
/-!
SUPPORT. Proofs of the family 10_state.md, part 3: the register map (rules R28, R32, R33, R90, R92), and that a
command runs on its latched operands alone (rules R28, R95).
-/

namespace Sys2Proof.Machine

/-! ### Host accesses at a register's offset -/

theorem hostWrite32_reg {s : State} (legal : s.params.Legal) (reg : Reg) (v : Word) :
    hostMove (.write32 (s.params.blockBase + reg.offset) v) s = writeReg s v reg := by
  simp only [hostMove, hostWrite32, wordTarget_reg legal]

theorem hostRead32_reg {s : State} (legal : s.params.Legal) (reg : Reg) :
    hostMove (.read32 (s.params.blockBase + reg.offset)) s = .next (s.observe (.word (s.readReg reg))) := by
  simp only [hostMove, hostRead32, wordTarget_reg legal]

theorem hostRead32_reserved {s : State} {off : Nat} (past : 0x24 ≤ off) (below : off < s.params.bufBase)
    (aligned : off % 4 = 0) :
    hostMove (.read32 (s.params.blockBase + off)) s = .next (s.observe (.word 0)) := by
  simp only [hostMove, hostRead32, wordTarget_reserved past below aligned]

/-- Settles O28: offset 0x00 is CMD's, and a write to CMD at BUSY = 0 issues. -/
theorem issueLatchesTheOperands : Obligations.IssueLatchesTheOperands := by
  intro s w legal idle
  have cmd := hostWrite32_reg legal .cmd w
  rw [writeReg, if_neg (by simp [idle])] at cmd
  exact cmd

/-- Settles O33: each of the three offsets is its register's. -/
theorem argWritesStore : Obligations.ArgWritesStore := fun _ v legal =>
  ⟨hostWrite32_reg legal .arg0 v, hostWrite32_reg legal .arg1 v, hostWrite32_reg legal .arg2 v⟩

theorem State.settled_idle {s : State} (idle : s.busy = false) (v : Word) : s.settled v = v := by
  simp [State.settled, idle]

/-- At BUSY = 0 a register whose reads may be free then reads as it stands. -/
theorem hostRead32_settled {s : State} (legal : s.params.Legal) (idle : s.busy = false) {reg : Reg} {v : Word}
    (reads : s.readReg reg = s.settled v) :
    hostMove (.read32 (s.params.blockBase + reg.offset)) s = .next (s.observe (.word v)) := by
  rw [hostRead32_reg legal, reads, State.settled_idle idle]

/-- Settles O31: each offset is its register's, or reserved. -/
theorem idleRegisterReads : Obligations.IdleRegisterReads := fun _ legal idle =>
  ⟨hostRead32_reg legal .cmd, hostRead32_reg legal .arg0, hostRead32_reg legal .arg1,
    hostRead32_reg legal .arg2, hostRead32_settled (reg := .result) legal idle rfl,
    hostRead32_reg legal .status, hostRead32_settled (reg := .key0) legal idle rfl,
    hostRead32_settled (reg := .key1) legal idle rfl, hostRead32_settled (reg := .key2) legal idle rfl,
    fun _ => hostRead32_reserved⟩

/-! ### STATUS -/

/-- An appended bit string counts above the bits it is put in front of. -/
theorem toNat_append_eq_add {m n : Nat} (x : BitVec m) (y : BitVec n) :
    (x ++ y).toNat = x.toNat * 2 ^ n + y.toNat := by
  rw [BitVec.toNat_append, ← Nat.shiftLeft_add_eq_or_of_lt y.isLt, Nat.shiftLeft_eq]

theorem Phase.bit_toNat (ph : Phase) : ph.bit.toNat = if ph = .positioned then 1 else 0 := by
  cases ph <;> rfl

theorem ErrCode.code_le_five (e : ErrCode) : e.code.toNat ≤ 5 := by
  cases e <;> decide

theorem State.statusWord_toNat (s : State) : s.statusWord.toNat =
    (if s.busy then 1 else 0) + (if s.phase = .positioned then 2 else 0) + 256 * s.err.code.toNat := by
  have fields : s.statusWord.toNat = s.busy.toNat + 2 * s.phase.bit.toNat + 256 * s.err.code.toNat := by
    simp only [State.statusWord, toNat_append_eq_add, BitVec.toNat_ofBool, BitVec.ofNat_eq_ofNat,
      BitVec.toNat_ofNat]
    omega
  rw [fields, Phase.bit_toNat, mul_ite, Bool.toNat, Bool.cond_eq_ite]

/-- Settles O30: the word is the weighted sum of its fields, and offset 0x14 is STATUS's, which ignores a
write. -/
theorem statusWordLayout : Obligations.StatusWordLayout :=
  ⟨State.statusWord_toNat, ⟨rfl, rfl, rfl, rfl, rfl, rfl, ErrCode.code_le_five⟩,
    fun _ => BitVec.eq_of_toNat_eq (by rw [State.statusWord_toNat]; rfl),
    fun _ v legal => hostWrite32_reg legal .status v⟩

/-! ### Commands and the ARG registers -/

/-- The state with ARG0 to ARG2 replaced. -/
def State.withArgs (s : State) (x y z : Word) : State := { s with arg0 := x, arg1 := y, arg2 := z }

/-- INIT's loop reads BUF alone. -/
theorem initLoop_congr {s t : State} (h : ∀ a, s.bufByte a = t.bufByte a) (base : Nat) (ks : KeyState)
    (n : Nat) : initLoop s base ks n = initLoop t base ks n := by
  rw [initLoop_eq, initLoop_eq, State.bufBytes_congr fun k _ => h (base + k)]

theorem initEffect_withArgs (s : State) (p : Pend) (x y z : Word) :
    initEffect (s.withArgs x y z) p = (initEffect s p).withArgs x y z := by
  have loop := initLoop_congr (s := s.withArgs x y z) (t := s) fun _ => rfl
  unfold initEffect
  rw [loop, apply_ite (State.withArgs · x y z)]
  rfl

theorem decryptByteEffect_withArgs (s : State) (p : Pend) (x y z : Word) :
    decryptByteEffect (s.withArgs x y z) p = (decryptByteEffect s p).withArgs x y z := by
  unfold decryptByteEffect
  simp only [apply_ite (State.withArgs · x y z)]
  rfl

theorem decryptBufEffect_withArgs (s : State) (p : Pend) (x y z : Word) :
    decryptBufEffect (s.withArgs x y z) p = (decryptBufEffect s p).withArgs x y z := by
  unfold decryptBufEffect
  simp only [apply_ite (State.withArgs · x y z)]
  rfl

/-- A completion whose effect leaves the ARG registers alone commutes with writing them. -/
theorem completeWith_withArgs {effect : State → Pend → State}
    (commutes : ∀ (s : State) (p : Pend) (x y z : Word),
      effect (s.withArgs x y z) p = (effect s p).withArgs x y z)
    {s t : State} (h : completeWith (effect s) s = .next t) (x y z : Word) :
    completeWith (effect (s.withArgs x y z)) (s.withArgs x y z) = .next (t.withArgs x y z) := by
  obtain ⟨p, hp, rfl⟩ := completeWith_next h
  rw [completeWith_some (s := s.withArgs x y z) hp, commutes]

theorem exec_withArgs {i : Instr} {s t : State} (h : exec i s = .next t) (x y z : Word) :
    exec i (s.withArgs x y z) = .next (t.withArgs x y z) := by
  cases i with
  | init => exact completeWith_withArgs initEffect_withArgs h x y z
  | decryptByte => exact completeWith_withArgs decryptByteEffect_withArgs h x y z
  | decryptBuf => exact completeWith_withArgs decryptBufEffect_withArgs h x y z

/-- INIT has no third operand (rule R95). -/
theorem execInit_ignores_a2 {s : State} {p : Pend} (hp : s.pend = some p) (z : Word) :
    execInit { s with pend := some { p with a2 := z } } = execInit s := by
  rw [execInit, execInit, completeWith_some hp, completeWith_some rfl]
  have loop := initLoop_congr (s := { s with pend := some { p with a2 := z } }) (t := s) fun _ => rfl
  unfold initEffect
  rw [loop]
  rfl

/-- DECRYPT_BYTE has one operand (rule R95). -/
theorem execDecryptByte_ignores_a1_a2 {s : State} {p : Pend} (hp : s.pend = some p) (y z : Word) :
    execDecryptByte { s with pend := some { p with a1 := y, a2 := z } } = execDecryptByte s := by
  rw [execDecryptByte, execDecryptByte, completeWith_some hp, completeWith_some rfl]
  rfl

/-- Settles O29: every command's effect commutes with writing the ARG registers, and reads of PEND only its own
operands. -/
theorem argWritesDoNotReachAnIssuedCommand : Obligations.ArgWritesDoNotReachAnIssuedCommand :=
  ⟨fun _ _ _ x y z h => exec_withArgs h x y z, fun _ _ z hp => execInit_ignores_a2 hp z,
    fun _ _ y z hp => execDecryptByte_ignores_a1_a2 hp y z⟩

end Sys2Proof.Machine
end

section
/-!
SUPPORT. Proofs of the family 20_memory.md: which host accesses there are and what they change (rules R62, R64, R65,
R67, R68), and which bytes of BUF each command uses (rules R60, R61).
-/

namespace Sys2Proof.Machine

/-! ### Host accesses -/

/-- Below BLOCK_BASE or past the end of BUF. -/
def OutsideWindow (p : Params) (addr : Nat) : Prop :=
  addr < p.blockBase ∨ p.blockBase + p.bufBase + p.memSize ≤ addr

theorem wordTarget_outside {p : Params} {addr : Nat} (h : OutsideWindow p addr) :
    wordTarget p addr = .error .outsideWindow := by
  obtain below | past := h
  · rw [wordTarget, if_pos below]
  · rw [wordTarget, if_neg (by omega), if_pos (by omega)]

theorem byteTarget_outside {p : Params} {addr : Nat} (h : OutsideWindow p addr) :
    byteTarget p addr = .error .outsideWindow := by
  obtain below | past := h
  · rw [byteTarget, if_pos below]
  · rw [byteTarget, if_neg (by omega), if_neg (by omega), if_pos (by omega)]

theorem wordTarget_buf {p : Params} {addr : Nat} (first : p.blockBase + p.bufBase ≤ addr)
    (last : addr < p.blockBase + p.bufBase + p.memSize) : wordTarget p addr = .error .wrongWidth := by
  rw [wordTarget, if_neg (by omega), if_neg (by omega), if_pos (by omega)]

theorem byteTarget_registers {p : Params} {addr : Nat} (first : p.blockBase ≤ addr)
    (last : addr < p.blockBase + p.bufBase) : byteTarget p addr = .error .wrongWidth := by
  rw [byteTarget, if_neg (by omega), if_pos (by omega)]

theorem wordTarget_misaligned {p : Params} {addr : Nat} (first : p.blockBase ≤ addr)
    (last : addr < p.blockBase + p.bufBase) (misaligned : (addr - p.blockBase) % 4 ≠ 0) :
    wordTarget p addr = .error .misaligned := by
  rw [wordTarget, if_neg (by omega), if_neg (by omega), if_neg (by omega), if_pos misaligned]

/-- A 32-bit access with no target is refused, write and read alike. -/
theorem wordAccess_refused {s : State} {addr : Nat} {r : Refusal} (h : wordTarget s.params addr = .error r)
    (v : Word) : hostMove (.write32 addr v) s = .refused r ∧ hostMove (.read32 addr) s = .refused r := by
  simp only [hostMove, hostWrite32, hostRead32, h, and_self]

/-- A one-byte access with no target is refused, write and read alike. -/
theorem byteAccess_refused {s : State} {addr : Nat} {r : Refusal} (h : byteTarget s.params addr = .error r)
    (b : Byte) : hostMove (.write8 addr b) s = .refused r ∧ hostMove (.read8 addr) s = .refused r := by
  simp only [hostMove, hostWrite8, hostRead8, h, and_self]

theorem access_refused_outside {s : State} {addr : Nat} (h : OutsideWindow s.params addr) (v : Word) (b : Byte) :
    hostMove (.write32 addr v) s = .refused .outsideWindow ∧ hostMove (.read32 addr) s = .refused .outsideWindow ∧
      hostMove (.write8 addr b) s = .refused .outsideWindow ∧ hostMove (.read8 addr) s = .refused .outsideWindow :=
  and_assoc.mp ⟨wordAccess_refused (wordTarget_outside h) v, byteAccess_refused (byteTarget_outside h) b⟩

/-- Settles O38: an access has no target outside the window, at the wrong width, or misaligned. -/
theorem outsideAccessesAreRefused : Obligations.OutsideAccessesAreRefused := by
  refine fun s addr bits v b => ⟨fun below => access_refused_outside (.inl below) v b,
    fun past => access_refused_outside (.inr past) v b,
    fun first last => wordAccess_refused (wordTarget_buf first last) v, fun _ first last => ?_, rfl⟩
  obtain ⟨write, read⟩ := byteAccess_refused (byteTarget_registers first last) b
  exact ⟨write, read, fun misaligned => wordAccess_refused (wordTarget_misaligned first last misaligned) v⟩

/-- Settles O36: of all that a host move can do, a read only records what it saw. -/
theorem readsHaveNoSideEffect : Obligations.ReadsHaveNoSideEffect := by
  intro s t m read moved
  obtain ⟨v, -, rfl, -⟩ | ⟨v, rfl, -⟩ | ⟨v, rfl, -⟩ | ⟨v, rfl, -⟩ | ⟨⟨addr, v, rfl⟩, -⟩ | ⟨a, b, -, rfl, -⟩ |
    ⟨-, observed⟩ | ⟨rfl, -⟩ | ⟨rfl, -⟩ := hostMove_cases moved
  case inr.inr.inr.inr.inr.inr.inl => exact observed
  all_goals simp at read

/-! ### BUF as byte sequences -/

theorem State.bufBytes_getElem? (s : State) (a : Nat) {k n : Nat} (h : k < n) :
    (s.bufBytes a n)[k]? = some (s.bufByte (a + k)) := by
  induction n generalizing a k with
  | zero => omega
  | succ n ih =>
    cases k with
    | zero => rfl
    | succ k =>
      rw [State.bufBytes, List.getElem?_cons_succ, ih (a + 1) (by omega), Nat.add_right_comm, Nat.add_assoc]

/-- Two states agree on a range exactly when they hold the same byte sequence there. -/
theorem State.agreeOn_iff {s t : State} {a n : Nat} : s.AgreeOn t a n ↔ s.bufBytes a n = t.bufBytes a n := by
  refine ⟨State.bufBytes_congr, fun same k hk => Option.some.inj ?_⟩
  rw [← s.bufBytes_getElem? a hk, same, t.bufBytes_getElem? a hk]

/-- A write outside a range leaves its byte sequence. -/
theorem State.bufBytes_setBuf_write {s : State} {a n x : Nat} (outside : x < a ∨ a + n ≤ x) {v : Byte} :
    (s.setBuf (Memory.write s.buf x v)).bufBytes a n = s.bufBytes a n :=
  State.bufBytes_congr fun _ hk => Memory.read_write_other (by omega) _ _ _

/-! ### INIT -/

theorem exec_init_success {s : State} {p : Pend} (hp : s.pend = some p)
    (valid : p.pwLen = 0 ∨ p.pwBase.toNat + p.pwLen.toNat ≤ s.params.memSize) :
    exec .init s =
      .next ((s.setKeys (initKeys (s.bufBytes p.pwBase.toNat p.pwLen.toNat))).startStream).succeed := by
  rw [exec, execInit, completeWith_some hp, initEffect, if_pos ((validRange_iff _ _ _).mpr valid), initLoop_eq,
    initKeys]

/-- Settles O50: the keys are those of the password, which is the same byte sequence in both states. -/
theorem initReadsOnlyThePasswordRange : Obligations.InitReadsOnlyThePasswordRange := by
  intro s t p hs ht size valid agree
  refine ⟨_, _, exec_init_success hs valid, exec_init_success ht (size ▸ valid), ?_, rfl, rfl, rfl, rfl⟩
  exact congrArg initKeys (State.agreeOn_iff.mp agree)

/-! ### DECRYPT_BYTE -/

/-- The state with BUF, the reset count and the parameters replaced. -/
def State.withMemory (s : State) (m : Memory) (r : Nat) (q : Params) : State :=
  { s with buf := m, resets := r, params := q }

theorem decryptByteEffect_withMemory (s : State) (p : Pend) (m : Memory) (r : Nat) (q : Params) :
    decryptByteEffect (s.withMemory m r q) p = (decryptByteEffect s p).withMemory m r q := by
  unfold decryptByteEffect
  simp only [apply_ite (State.withMemory · m r q)]
  rfl

/-- Settles O51: the effect commutes with replacing the memory. -/
theorem decryptByteTouchesNoMemory : Obligations.DecryptByteTouchesNoMemory := by
  intro s t m r q h
  obtain ⟨p, hp, rfl⟩ := completeWith_next h
  exact (completeWith_some (s := s.withMemory m r q) hp _).trans
    (congrArg _ (decryptByteEffect_withMemory s p m r q))

/-! ### DECRYPT_BUF -/

/-- Where no source byte is overwritten before it is read, the loop is `decrypt_buffer` (rule R170) from the source
range to the destination range. -/
theorem decryptLoop_eq_decryptBuffer (s : State) {src dst n : Nat} (ks : KeyState)
    (apart : dst ≤ src ∨ src + n ≤ dst) :
    (decryptLoop s.resets src dst ks s.buf n).1 = (decryptBuffer ks (s.bufBytes src n)).2 ∧
    (s.setBuf (decryptLoop s.resets src dst ks s.buf n).2).bufBytes dst n =
      (decryptBuffer ks (s.bufBytes src n)).1 := by
  induction n generalizing s src dst ks with
  | zero => exact ⟨rfl, rfl⟩
  | succ n ih =>
    obtain ⟨keys, out⟩ := ih (s.setBuf (Memory.write s.buf dst (decryptByte ks (s.bufByte src)).1))
      (decryptByte ks (s.bufByte src)).2 (src := src + 1) (dst := dst + 1) (by omega)
    rw [State.bufBytes_setBuf_write (by omega)] at keys out
    refine ⟨keys, congrArg₂ List.cons ?_ out⟩
    exact (decryptLoop_read_outside _ _ _ _ _ _ _ (.inl dst.lt_succ_self)).trans (Memory.read_write_self _ _ _ _)

theorem decryptBufEffect_empty {s : State} {p : Pend} (positioned : s.phase = .positioned) (empty : p.len = 0) :
    decryptBufEffect s p = s.succeed := by
  simp [decryptBufEffect, positioned, empty]

theorem decryptBufEffect_success {s : State} {p : Pend} (positioned : s.phase = .positioned) (nonempty : p.len ≠ 0)
    (hsrc : p.src.toNat + p.len.toNat ≤ s.params.memSize) (hdst : p.dst.toNat + p.len.toNat ≤ s.params.memSize)
    (apart : p.src = p.dst ∨ p.src.toNat + p.len.toNat ≤ p.dst.toNat ∨
      p.dst.toNat + p.len.toNat ≤ p.src.toNat) :
    decryptBufEffect s p =
      (((s.setKeys (decryptLoop s.resets p.src.toNat p.dst.toNat s.keys s.buf p.len.toNat).1).setBuf
        (decryptLoop s.resets p.src.toNat p.dst.toNat s.keys s.buf p.len.toNat).2).advance
          p.len.toNat).succeed := by
  have noOverlap : ¬ (p.src ≠ p.dst ∧ overlap p.src p.dst p.len = true) := by
    rw [overlap_iff]
    rintro ⟨distinct, left, right⟩
    have := apart.resolve_left distinct
    omega
  have validSrc := (validRange_iff s.params.memSize p.src p.len).mpr (.inr hsrc)
  have validDst := (validRange_iff s.params.memSize p.dst p.len).mpr (.inr hdst)
  rw [decryptBufEffect, if_neg (by simp [positioned]), if_neg nonempty, if_neg (by simp [validSrc]),
    if_neg (by simp [validDst]), if_neg noOverlap]

/-- A DECRYPT_BUF on valid ranges, equal or disjoint, is `decrypt_buffer` of the source bytes (rule R181), for the
empty range too. -/
theorem exec_decryptBuf_decrypts {s : State} {p : Pend} (hp : s.pend = some p) (positioned : s.phase = .positioned)
    (hsrc : p.src.toNat + p.len.toNat ≤ s.params.memSize) (hdst : p.dst.toNat + p.len.toNat ≤ s.params.memSize)
    (apart : p.src = p.dst ∨ p.src.toNat + p.len.toNat ≤ p.dst.toNat ∨
      p.dst.toNat + p.len.toNat ≤ p.src.toNat) :
    ∃ s', exec .decryptBuf s = .next s' ∧
      s'.keys = (decryptBuffer s.keys (s.bufBytes p.src.toNat p.len.toNat)).2 ∧
      s'.bufBytes p.dst.toNat p.len.toNat = (decryptBuffer s.keys (s.bufBytes p.src.toNat p.len.toNat)).1 := by
  refine ⟨_, completeWith_some hp _, ?_⟩
  by_cases empty : p.len = 0
  · rw [decryptBufEffect_empty positioned empty, empty]
    exact ⟨rfl, rfl⟩
  · rw [decryptBufEffect_success positioned empty hsrc hdst apart]
    have unread : p.dst.toNat ≤ p.src.toNat ∨ p.src.toNat + p.len.toNat ≤ p.dst.toNat := by
      obtain same | below | above := apart
      · exact .inl (congrArg BitVec.toNat same).ge
      · exact .inr below
      · exact .inl (by omega)
    obtain ⟨keys, out⟩ := decryptLoop_eq_decryptBuffer s s.keys unread
    exact ⟨keys, out ▸ State.bufBytes_congr fun _ _ => rfl⟩

/-- Settles O52: both states run `decrypt_buffer` from the same keys on the same byte sequence. -/
theorem decryptBufReadsOnlyTheSourceRange : Obligations.DecryptBufReadsOnlyTheSourceRange := by
  intro s t p hs ht keys size sPositioned tPositioned hsrc hdst apart agree
  obtain ⟨s', sRuns, sKeys, sOut⟩ := exec_decryptBuf_decrypts hs sPositioned hsrc hdst apart
  obtain ⟨t', tRuns, tKeys, tOut⟩ := exec_decryptBuf_decrypts ht tPositioned (size ▸ hsrc) (size ▸ hdst) apart
  have source : s.bufBytes p.src.toNat p.len.toNat = t.bufBytes p.src.toNat p.len.toNat :=
    State.agreeOn_iff.mp agree
  rw [keys, source] at sKeys sOut
  exact ⟨s', t', sRuns, tRuns, sKeys.trans tKeys.symm, State.agreeOn_iff.mpr (sOut.trans tOut.symm)⟩

end Sys2Proof.Machine
end

section
/-!
SUPPORT. Proofs of the family 30_encoding.md: the decoder and the encoder (rules R93, R94, R97, R98), which command a
step runs (rule R203), and what the host's accesses to the register space and to BUF do (rules R91, R92, R241).
-/

namespace Sys2Proof.Machine

/-! ### The decoder and the encoder -/

theorem decode_encode (i : Instr) : decode (encode i) = .ok i := by
  cases i <;> rfl

theorem decode_eq_ok_iff {w : Word} {i : Instr} : decode w = .ok i ↔ w = encode i :=
  ⟨decode_eq_ok, fun encoded => encoded ▸ decode_encode i⟩

/-- Settles O3: the decoder accepts the encodings and no other word. -/
theorem decodeAcceptsExactlyTheEncodings : Obligations.DecodeAcceptsExactlyTheEncodings :=
  fun _ _ => decode_eq_ok_iff

/-- Settles O2: the encoding of every instruction decodes to it. -/
theorem decodeOfEncodeIsTheInstruction : Obligations.DecodeOfEncodeIsTheInstruction :=
  fun i _ => decode_encode i

/-- Settles O1: the three encodings decode, and the decoder runs on the five other words. -/
theorem sampleCommandWordsDecode : Obligations.SampleCommandWordsDecode :=
  ⟨decode_encode .init, decode_encode .decryptByte, decode_encode .decryptBuf, by decide⟩

theorem opField_eq (w : Word) : opField w = BitVec.ofNat 8 w.toNat := lowByte_eq w

theorem rsvField_eq_zero_iff (w : Word) : rsvField w = 0 ↔ w.toNat < 256 := upper_zero_iff w

/-- In a word whose reserved bits are 0 the opcode field is the word's value. -/
theorem opField_eq_iff {w : Word} (byte : w.toNat < 256) (op : Byte) : opField w = op ↔ w.toNat = op.toNat := by
  rw [opField_eq, ← BitVec.toNat_inj, BitVec.toNat_ofNat, Nat.mod_eq_of_lt byte]

theorem decode_of_rsv {w : Word} (rsv : 256 ≤ w.toNat) : decode w = .error .reservedBits := by
  rw [decode, if_pos (mt (rsvField_eq_zero_iff w).mp rsv.not_gt)]

theorem decode_of_byte {w : Word} (byte : w.toNat < 256) :
    decode w =
      if w.toNat = 1 then .ok .init
      else if w.toNat = 2 then .ok .decryptByte
      else if w.toNat = 3 then .ok .decryptBuf
      else .error (.reservedOpcode (BitVec.ofNat 8 w.toNat)) := by
  rw [decode, if_neg (not_not.mpr ((rsvField_eq_zero_iff w).mpr byte))]
  simp only [opField_eq_iff byte]
  rw [opField_eq]
  rfl

/-- A word with reserved bits 0 and the opcode of an instruction is that instruction's encoding. -/
theorem eq_encode {w : Word} {i : Instr} (rsv : rsvField w = 0) (op : opField w = opcode i) : w = encode i := by
  rw [← rsvField_append_opField w, rsv, op, encode]

/-- Rule R97's legal words are those that decode. -/
theorem legalWord_iff_decodes {w : Word} : LegalWord w ↔ ∃ i, decode w = .ok i := by
  simp only [decode_eq_ok_iff]
  constructor
  · rintro ⟨rsv, op | op | op⟩
    · exact ⟨.init, eq_encode rsv op⟩
    · exact ⟨.decryptByte, eq_encode rsv op⟩
    · exact ⟨.decryptBuf, eq_encode rsv op⟩
  · rintro ⟨i, rfl⟩
    cases i <;> decide

/-! ### Which command a step runs -/

theorem completeWord_decoded {w : Word} {i : Instr} (decoded : decode w = .ok i) (s : State) :
    completeWord w s = exec i s := by
  rw [completeWord, decoded]

theorem completeWord_illegal {w : Word} {s : State} {p : Pend} (hp : s.pend = some p) (illegal : ¬ LegalWord w) :
    completeWord w s = .next (s.raise .illegal) := by
  unfold completeWord
  split
  · exact absurd (legalWord_iff_decodes.mpr ⟨_, ‹_›⟩) illegal
  · exact completeWith_some hp _

/-- Settles O4: the decoder's table in numbers, the legal words as those that decode, and the completion of any
other word as the one operation that raises an error. -/
theorem decodeReadsOpAndRsvOnly : Obligations.DecodeReadsOpAndRsvOnly := by
  refine fun w => ⟨?_, legalWord_iff_decodes, fun s p hp illegal => completeWord_illegal hp illegal⟩
  split
  · exact decode_of_rsv ‹_›
  · exact decode_of_byte (not_le.mp ‹_›)

/-- With a command pending whose word decodes, the engine's turn is that command (rule R203 (2)). -/
theorem engineTurn_decoded {s : State} {p : Pend} {i : Instr} (busy : s.busy = true) (hp : s.pend = some p)
    (decoded : decode p.cmd = .ok i) : engineTurn s = exec i s := by
  simp only [engineTurn, if_pos busy, hp, completeWord_decoded decoded]

@[simp] theorem State.afterTurn_busy (s : State) : s.afterTurn.busy = s.busy := by
  obtain ⟨ts, h⟩ := afterTurn_eq s
  rw [h, State.setAgenda_busy]

@[simp] theorem State.afterTurn_pend (s : State) : s.afterTurn.pend = s.pend := by
  obtain ⟨ts, h⟩ := afterTurn_eq s
  rw [h, State.setAgenda_pend]

/-- Settles O5: the step is the engine's turn, and taking its entry off the agenda leaves BUSY and PEND. -/
theorem stepRunsTheDecodedCommand : Obligations.StepRunsTheDecodedCommand := by
  intro s p i engine busy hp decoded _
  rw [step_engine engine busy]
  exact engineTurn_decoded (s.afterTurn_busy.trans busy) (s.afterTurn_pend.trans hp) decoded

/-- A word takes its value modulo 2^width. -/
theorem ofNat_mod_two_pow (n x : Nat) : BitVec.ofNat n (x % 2 ^ n) = BitVec.ofNat n x :=
  BitVec.eq_of_toNat_eq (by rw [BitVec.toNat_ofNat, BitVec.toNat_ofNat, Nat.mod_mod])

/-- The table's word of 32 bits is the value modulo 2^32, the command word itself. -/
theorem tableWord_32 (w : Nat) : tableWord 32 w = some (BitVec.ofNat 32 w) := by
  rw [tableWord, if_pos (Nat.mod_lt _ (by decide)), ofNat_mod_two_pow]

theorem decode_of_decodeTableWord {w : Nat} {i : Instr} (h : decodeTableWord 32 w = some i) :
    decode (BitVec.ofNat 32 w) = .ok i := by
  simp only [decodeTableWord, tableWord_32] at h
  split at h
  · obtain rfl := Option.some.inj h
    assumption
  · cases h

/-- The step after a command is placed is the engine's turn on the state with that command issued. -/
theorem step_placeCommand (s : State) (w : Word) : step (placeCommand s w) = engineTurn (s.issue w) :=
  step_agenda_engine (s := placeCommand s w) rfl

/-- Settles O6: placing issues the word, and the engine's turn then runs what it decodes to. -/
theorem stepRunsAPlacedCommand : Obligations.StepRunsAPlacedCommand := by
  intro s w i placed
  have issued : s.withFetchWord 32 w = placeCommand s (BitVec.ofNat 32 w) := by
    rw [State.withFetchWord, ofNat_mod_two_pow]
  rw [issued, step_placeCommand]
  exact engineTurn_decoded (State.issue_busy _ _) (State.issue_pend _ _) (decode_of_decodeTableWord placed)

/-! ### Host writes to the register space -/

/-- No register from RESULT up stores a write (rule R92). -/
theorem writeReg_readOnly {reg : Reg} (readOnly : 0x10 ≤ reg.offset) (s : State) (v : Word) :
    writeReg s v reg = .next s := by
  cases reg
  case cmd | arg0 | arg1 | arg2 => simp [Reg.offset] at readOnly
  all_goals rfl

/-- Settles O34: from 0x10 up an offset is a read-only register's, or reserved. -/
theorem readOnlyWritesAreIgnored : Obligations.ReadOnlyWritesAreIgnored := by
  intro s v off legal readOnly below aligned
  cases at_off : regAtOffset off with
  | none =>
    have reserved : wordTarget s.params (s.params.blockBase + off) = .ok none :=
      wordTarget_eq_ok.mpr ⟨off, rfl, below, aligned, at_off.symm⟩
    simp only [hostMove, hostWrite32, reserved]
  | some reg =>
    obtain rfl := regAtOffset_eq_some at_off
    rw [hostWrite32_reg legal, writeReg_readOnly readOnly]

/-! ### Host accesses to BUF -/

theorem byteTarget_buf {p : Params} {a : Nat} (inside : a < p.memSize) :
    byteTarget p (p.blockBase + p.bufBase + a) = .ok a :=
  byteTarget_eq_ok.mpr ⟨rfl, inside⟩

theorem hostRead8_buf {s : State} {a : Nat} (inside : a < s.params.memSize) :
    hostMove (.read8 (s.params.blockBase + s.params.bufBase + a)) s =
      .next (s.observe (.byte (s.readBuf a))) := by
  simp only [hostMove, hostRead8, byteTarget_buf inside]

theorem hostWrite8_buf {s : State} {a : Nat} (inside : a < s.params.memSize) (enabled : s.mayWriteBuf a = true)
    (b : Byte) :
    hostMove (.write8 (s.params.blockBase + s.params.bufBase + a) b) s =
      .next (s.setBuf (Memory.write s.buf a b)) := by
  simp only [hostMove, hostWrite8, byteTarget_buf inside, enabled, if_true]

theorem State.mayWriteBuf_idle {s : State} (idle : s.busy = false) (a : Nat) : s.mayWriteBuf a = true := by
  simp only [State.mayWriteBuf, idle]

theorem State.readBuf_idle {s : State} (idle : s.busy = false) (a : Nat) : s.readBuf a = s.bufByte a := by
  simp only [State.readBuf, idle]

/-- Settles O35: at BUSY = 0 the write is stored in BUF, and the read is of BUF as it stands. -/
theorem bufWindowReadsWhatWasWritten : Obligations.BufWindowReadsWhatWasWritten := by
  intro s a b idle inside
  refine ⟨⟨_, hostWrite8_buf inside (State.mayWriteBuf_idle idle a) b, Memory.read_write_self _ _ _ _,
    fun x other => Memory.read_write_other other _ _ _, rfl⟩, ?_⟩
  rw [hostRead8_buf inside, State.readBuf_idle idle]
  rfl

/-! ### Host reads while BUSY = 1 -/

/-- The bytes that a pending command writes are those of a DECRYPT_BUF's destination range (rule R241). -/
theorem Pend.writes_imp {p : Pend} {a : Nat} (writes : p.writes a = true) :
    p.cmd = 0x00000003 ∧ p.a1.toNat ≤ a ∧ a < p.a1.toNat + p.a2.toNat := by
  unfold Pend.writes at writes
  split at writes
  case h_3 decoded => exact ⟨decode_eq_ok decoded, (inRange_iff _ _ _).mp writes⟩
  all_goals cases writes

/-- A BUF byte that the pending command does not write reads as it stands (rule R241). -/
theorem State.readBuf_not_written {s : State} {p : Pend} {a : Nat} (busy : s.busy = true) (hp : s.pend = some p)
    (unwritten : ¬ p.writes a = true) : s.readBuf a = s.bufByte a := by
  simp only [State.readBuf, busy, hp, if_neg unwritten]

/-- Settles O32: each offset is its register's, or reserved, and a BUF byte is read as it stands unless the pending
command writes it. -/
theorem busyReads : Obligations.BusyReads := by
  intro s p legal busy hp
  refine ⟨hostRead32_reg legal .status, hostRead32_reg legal .arg0, hostRead32_reg legal .arg1,
    hostRead32_reg legal .arg2, hostRead32_reg legal .cmd, fun _ => hostRead32_reserved, ?_, fun a inside => ?_⟩
  · rintro off (rfl | rfl | rfl | rfl)
    · exact ⟨_, hostRead32_reg legal .result⟩
    · exact ⟨_, hostRead32_reg legal .key0⟩
    · exact ⟨_, hostRead32_reg legal .key1⟩
    · exact ⟨_, hostRead32_reg legal .key2⟩
  · refine ⟨⟨_, hostRead8_buf inside⟩, fun outside => ?_⟩
    have unwritten : ¬ p.writes a = true := fun writes => by
      obtain ⟨cmd, first, last⟩ := Pend.writes_imp writes
      obtain other | before | after := outside
      · exact other cmd
      · omega
      · omega
    rw [← State.readBuf_not_written busy hp unwritten]
    exact hostRead8_buf inside

end Sys2Proof.Machine
end

section
/-!
SUPPORT. Proofs of the family 40_crc.md, part 1: the functions that are linear for XOR, the sense of "linear over
GF(2)" in rule R114 (a).
-/

namespace Sys2Proof.Machine

/-- Linear over GF(2). -/
def XorLinear {m n : Nat} (f : BitVec m → BitVec n) : Prop := ∀ a b, f (a ^^^ b) = f a ^^^ f b

namespace XorLinear

variable {m n : Nat} {f g : BitVec m → BitVec n}

theorem map_zero (hf : XorLinear f) : f 0#m = 0#n := by
  have h := hf 0#m 0#m
  rwa [BitVec.xor_self, BitVec.xor_self] at h

theorem eq_of_map_eq (hf : XorLinear f) (kernel : ∀ a, f a = 0#n → a = 0#m) {a b : BitVec m} (h : f a = f b) :
    a = b := by
  have sum : f (a ^^^ b) = 0#n := by rw [hf, h, BitVec.xor_self]
  exact BitVec.xor_eq_zero_iff.mp (kernel _ sum)

/-- Agreement at the powers of two below `2 ^ j` gives agreement at every word with no bit set from `j` on: the
highest bit that may be set is split off. -/
theorem eq_of_bits_below (hf : XorLinear f) (hg : XorLinear g) :
    ∀ j, (∀ k, k < j → f (1#m <<< k) = g (1#m <<< k)) → ∀ a, (∀ k, j ≤ k → a.getLsbD k = false) → f a = g a := by
  intro j
  induction j with
  | zero =>
    intro _ a clear
    obtain rfl : a = 0#m := BitVec.eq_of_getLsbD_eq fun k _ => by simp [clear k (Nat.zero_le k)]
    rw [hf.map_zero, hg.map_zero]
  | succ j ih =>
    intro basis a clear
    have lower := ih fun k hk => basis k (hk.trans (Nat.lt_succ_self j))
    cases top : a.getLsbD j with
    | false =>
      exact lower a fun k hk => by
        obtain rfl | above := hk.eq_or_lt
        · exact top
        · exact clear k above
    | true =>
      have rest : f (a ^^^ 1#m <<< j) = g (a ^^^ 1#m <<< j) := lower _ fun k hk => by
        obtain rfl | above := hk.eq_or_lt
        · simp [top, BitVec.lt_of_getLsbD top]
        · have other : k - j ≠ 0 := by omega
          simp [clear k above, other]
      rw [hf, hg, basis j (Nat.lt_succ_self j)] at rest
      exact (BitVec.xor_left_inj _).mp rest

theorem eq_of_basis (hf : XorLinear f) (hg : XorLinear g) (basis : ∀ k, k < m → f (1#m <<< k) = g (1#m <<< k))
    (a : BitVec m) : f a = g a :=
  hf.eq_of_bits_below hg m basis a fun k hk => BitVec.getLsbD_of_ge a k hk

end XorLinear

end Sys2Proof.Machine
end

section
/-!
SUPPORT. Proofs of the family 40_crc.md, part 2: the builder of rule R110, the ROM of rule R113, and the
properties of rule R114.
-/

namespace Sys2Proof.Machine

/-! ### The low byte of a word -/

theorem low_byte_setWidth (b : Byte) : (b.setWidth 32).extractLsb' 0 8 = b := by
  rw [← BitVec.toNat_inj, BitVec.extractLsb'_toNat, Nat.shiftRight_zero, BitVec.toNat_setWidth]
  omega

theorem low_byte_mask (v : Word) : (v &&& 0xFF).setWidth 8 = v.extractLsb' 0 8 := by
  have mask : (0xFF : Word).toNat = 2 ^ 8 - 1 := rfl
  rw [← BitVec.toNat_inj, BitVec.toNat_setWidth, BitVec.toNat_and, mask, Nat.and_two_pow_sub_one_eq_mod,
    BitVec.extractLsb'_toNat, Nat.shiftRight_zero, Nat.mod_mod]

/-! ### The builder -/

/-- The shift and the conditional polynomial are each linear. -/
theorem crcShift_eq (v : Word) : crcShift v = (v >>> 1) ^^^ if v[0] then 0xEDB88320#32 else 0#32 := by
  unfold crcShift
  split <;> simp

theorem ite_xor (p q : Bool) (c : Word) :
    (if p ^^ q then c else 0#32) = (if p then c else 0#32) ^^^ if q then c else 0#32 := by
  cases p <;> cases q <;> simp

theorem crcShift_xorLinear : XorLinear crcShift := by
  intro v w
  rw [crcShift_eq, crcShift_eq, crcShift_eq, BitVec.getElem_xor, BitVec.ushiftRight_xor_distrib, ite_xor]
  ac_rfl

/-- The top bit of an iteration's result is the bit shifted out, since the polynomial's top bit is set. -/
theorem msb_crcShift (v : Word) : (crcShift v).msb = v[0] := by
  rw [crcShift_eq, BitVec.msb_xor, BitVec.msb_ushiftRight]
  cases v[0] <;> rfl

theorem crcShift_eq_zero {v : Word} (h : crcShift v = 0#32) : v = 0#32 := by
  have low : v[0] = false := by rw [← msb_crcShift, h]; rfl
  have shifted : v >>> 1 = 0#32 := by simpa [crcShift_eq, low] using h
  refine BitVec.eq_of_getLsbD_eq fun k _ => ?_
  cases k with
  | zero => simpa using low
  | succ k => simpa [Nat.add_comm 1 k] using congrArg (·.getLsbD k) shifted

theorem crcShifts_xorLinear : ∀ n, XorLinear (crcShifts n)
  | 0, _, _ => rfl
  | n + 1, v, w => by simp only [crcShifts, crcShift_xorLinear v w, crcShifts_xorLinear n _ _]

theorem crcShifts_eq_zero {v : Word} : ∀ {n}, crcShifts n v = 0#32 → v = 0#32
  | 0, h => h
  | _ + 1, h => crcShift_eq_zero (crcShifts_eq_zero h)

theorem crcEntry_xorLinear : XorLinear crcEntry := by
  intro a b
  rw [crcEntry, BitVec.setWidth_xor, crcShifts_xorLinear]
  rfl

theorem crcEntry_eq_zero {i : Byte} (h : crcEntry i = 0#32) : i = 0#8 := by
  have zero : i.setWidth 32 = 0#32 := crcShifts_eq_zero h
  rw [← low_byte_setWidth i, zero]
  rfl

/-! ### The ROM -/

/-- Row label + column = index (rule R113). -/
theorem crcRom_eq_rows : crcRom =
    (List.range 32).map fun r => (List.range 8).map fun c => crcEntry (BitVec.ofNat 8 (8 * r + c)) := by decide

theorem crcTable_eq_crcEntry (i : Byte) : crcTable i = crcEntry i := by
  have row : i.toNat / 8 < 32 := by omega
  have column : i.toNat % 8 < 8 := by omega
  simp [crcTable, crcRom_eq_rows, row, column, Nat.div_add_mod]

/-- Rows of `n` consecutive values, read one after the other. -/
theorem flatten_rows {α : Type} (f : Nat → α) (n : Nat) : ∀ m,
    ((List.range m).map fun r => (List.range n).map fun c => f (n * r + c)).flatten = (List.range (n * m)).map f
  | 0 => rfl
  | m + 1 => by
    rw [List.range_succ, List.map_append, List.flatten_append, flatten_rows f n m, Nat.mul_succ, List.range_add]
    simp

/-- Settles O8: the ROM's rows are the builder's, so its entries are, and so is the ROM read row by row. -/
theorem romHoldsTheBuiltTable : Obligations.RomHoldsTheBuiltTable :=
  ⟨crcTable_eq_crcEntry, (congrArg List.flatten crcRom_eq_rows).trans
    (flatten_rows (fun i => crcEntry (BitVec.ofNat 8 i)) 8 32)⟩

theorem crcTable_xorLinear : XorLinear crcTable := by
  rw [funext crcTable_eq_crcEntry]
  exact crcEntry_xorLinear

theorem crcTable_eq_zero {i : Byte} (h : crcTable i = 0#32) : i = 0#8 :=
  crcEntry_eq_zero (crcTable_eq_crcEntry i ▸ h)

theorem crcTable_inj {a b : Byte} (h : crcTable a = crcTable b) : a = b :=
  crcTable_xorLinear.eq_of_map_eq (fun _ => crcTable_eq_zero) h

/-! ### The step -/

/-- A logical shift by 8 leaves 24 bits (rule R114 (b)). -/
theorem ushiftRight_8_and_mask (v : Word) : (v >>> 8) &&& 0x00FFFFFF#32 = v >>> 8 := by
  have mask : (0x00FFFFFF#32).toNat = 2 ^ 24 - 1 := rfl
  rw [← BitVec.toNat_inj, BitVec.toNat_and, mask, Nat.and_two_pow_sub_one_eq_mod, BitVec.toNat_ushiftRight,
    Nat.shiftRight_eq_div_pow]
  omega

/-- The step without its masks: the index is the XOR of the two low bytes (rule R111). -/
theorem crcStep_eq (b : Byte) (crc : Word) :
    crcStep b crc = (crc >>> 8) ^^^ crcTable (crc.extractLsb' 0 8 ^^^ b) := by
  have index : ((crc ^^^ b.setWidth 32) &&& 0xFF).setWidth 8 = crc.extractLsb' 0 8 ^^^ b := by
    rw [low_byte_mask, BitVec.extractLsb'_xor, low_byte_setWidth]
  exact congrArg₂ (· ^^^ crcTable ·) (ushiftRight_8_and_mask crc) index

theorem crcStep_inj {a b : Byte} {crc : Word} (h : crcStep a crc = crcStep b crc) : a = b := by
  rw [crcStep_eq, crcStep_eq, BitVec.xor_right_inj] at h
  exact (BitVec.xor_right_inj _).mp (crcTable_inj h)

/-- The shift leaves the top byte 0 (rule R114 (c)). -/
theorem crcStep_top_byte (b : Byte) (crc : Word) :
    (crcStep b crc).extractLsb' 24 8 = (crcTable (crc.extractLsb' 0 8 ^^^ b)).extractLsb' 24 8 := by
  have shifted : (crc >>> 8).extractLsb' 24 8 = 0#8 := by
    rw [← BitVec.toNat_inj, BitVec.extractLsb'_toNat, BitVec.toNat_ushiftRight, Nat.shiftRight_eq_div_pow,
      Nat.shiftRight_eq_div_pow]
    change _ = 0
    omega
  rw [crcStep_eq, BitVec.extractLsb'_xor, shifted, BitVec.zero_xor]

/-- A byte XORed into the low byte beforehand is not moved by the shift (rule R114 (d)). -/
theorem crcStep_eq_crcStep_zero (b : Byte) (crc : Word) : crcStep b crc = crcStep 0 (crc ^^^ b.setWidth 32) := by
  have shifted : b.setWidth 32 >>> 8 = 0#32 := by
    rw [← BitVec.toNat_inj, BitVec.toNat_ushiftRight, BitVec.toNat_setWidth, Nat.shiftRight_eq_div_pow]
    change _ = 0
    omega
  simp only [crcStep_eq, BitVec.ushiftRight_xor_distrib, BitVec.extractLsb'_xor, shifted, low_byte_setWidth,
    BitVec.ofNat_eq_ofNat, BitVec.xor_zero]

/-- Settles O9: linearity and injectivity come from the builder's loop through the ROM's equality with it, and the
step's clauses from its form without masks. -/
theorem crcTableAndStepProperties : Obligations.CrcTableAndStepProperties :=
  ⟨crcTable_xorLinear, crcTable_xorLinear.map_zero,
    fun _ linear basis => XorLinear.eq_of_basis linear crcTable_xorLinear basis,
    ushiftRight_8_and_mask, crcStep_top_byte, crcStep_eq_crcStep_zero, fun _ _ => crcTable_inj,
    fun _ _ _ => crcStep_inj⟩

end Sys2Proof.Machine
end

section
/-!
SUPPORT. Proofs of the family 41_key_schedule.md: the key updater in numbers (rule R131), the key initializer
(rule R130), and the INIT command that runs it on a range of BUF (rules R140, R141).
-/

namespace Sys2Proof.Machine

/-! ### The key updater -/

theorem toNat_and_low_byte (v : Word) : (v &&& 0xFF).toNat = v.toNat % 256 := by
  have mask : (0xFF : Word).toNat = 2 ^ 8 - 1 := rfl
  rw [BitVec.toNat_and, mask, Nat.and_two_pow_sub_one_eq_mod]

/-- The byte that key2' is stepped with: `key1' >> 24`, from the reduced key1' (rule R131 (d)). -/
theorem top_byte_eq (v : Word) : ((v >>> 24) &&& 0xFF).setWidth 8 = BitVec.ofNat 8 (v.toNat / 2 ^ 24) := by
  have low : ((v >>> 24) &&& 0xFF).setWidth 8 = lowByte (v >>> 24) := low_byte_mask _
  rw [low, lowByte_eq, BitVec.toNat_ushiftRight, Nat.shiftRight_eq_div_pow]

theorem updateKeys_key0 (ks : KeyState) (c : Byte) : (updateKeys ks c).key0 = crcStep c ks.key0 := rfl

theorem updateKeys_key1 (ks : KeyState) (c : Byte) :
    (updateKeys ks c).key1 = (ks.key1 + ((updateKeys ks c).key0 &&& 0xFF)) * 134775813 + 1 := rfl

theorem updateKeys_key2 (ks : KeyState) (c : Byte) : (updateKeys ks c).key2 =
    crcStep ((((updateKeys ks c).key1 >>> 24) &&& 0xFF).setWidth 8) ks.key2 := rfl

/-- Reducing the product modulo 2^32 before the increment (rule R131 (b)) or only after it is the same. -/
theorem updateKeys_key1_toNat (ks : KeyState) (c : Byte) : (updateKeys ks c).key1.toNat =
    ((ks.key1.toNat + (updateKeys ks c).key0.toNat % 256) % 2 ^ 32 * 134775813 + 1) % 2 ^ 32 := by
  have multiplier : (134775813 : Word).toNat = 134775813 := rfl
  have increment : (1 : Word).toNat = 1 := rfl
  rw [updateKeys_key1, BitVec.toNat_add, BitVec.toNat_mul, BitVec.toNat_add, toNat_and_low_byte, multiplier,
    increment, Nat.mod_add_mod]

/-- Settles O10: each key has its equation, in numbers for key1' and for the byte that key2' is stepped with, and
the updater runs on the four samples. -/
theorem updateKeysRecurrence : Obligations.UpdateKeysRecurrence := by
  refine ⟨fun ks c => ⟨updateKeys_key0 ks c, updateKeys_key1_toNat ks c, ?_⟩, by decide⟩
  rw [updateKeys_key2, top_byte_eq]

/-! ### The key initializer -/

theorem initKeys_append_byte (password : List Byte) (b : Byte) :
    initKeys (password ++ [b]) = updateKeys (initKeys password) b :=
  List.foldl_concat _ _ _ _

/-- Settles O11: the fold takes the last byte last, and the initializer runs on the samples. -/
theorem initKeysFoldsThePassword : Obligations.InitKeysFoldsThePassword :=
  ⟨rfl, initKeys_append_byte, by decide⟩

/-! ### INIT -/

theorem exec_init_argument {s : State} {p : Pend} (hp : s.pend = some p) (nonempty : p.pwLen ≠ 0)
    (past : s.params.memSize < p.pwBase.toNat + p.pwLen.toNat) : exec .init s = .next (s.raise .argument) := by
  have invalid : ¬ validRange s.params.memSize p.pwBase p.pwLen = true := by
    rw [validRange_iff]
    exact not_or.mpr ⟨nonempty, past.not_ge⟩
  rw [exec, execInit, completeWith_some hp, initEffect, if_neg invalid]

/-- Where BUF holds a byte sequence, that is the sequence read back from the range. -/
theorem State.bufBytes_eq {s : State} {a : Nat} {bs : List Byte}
    (holds : ∀ k, k < bs.length → s.bufByte (a + k) = bs.getD k 0) : s.bufBytes a bs.length = bs := by
  refine List.ext_getElem (s.bufBytes_length a bs.length) fun k _ inside => Option.some.inj ?_
  rw [← List.getElem?_eq_getElem, s.bufBytes_getElem? a inside, holds k inside, List.getD_eq_getElem bs 0 inside]

/-- Settles O19: INIT has an equation on a valid range and one on any other, and a password held in BUF is the
byte sequence of its range. -/
theorem initConstructsAHandle : Obligations.InitConstructsAHandle := by
  refine fun s p hp => ⟨fun valid => ?_, exec_init_argument hp⟩
  have success := exec_init_success hp valid
  refine ⟨success, fun password length holds => ⟨_, success, ?_, rfl, rfl⟩⟩
  exact congrArg initKeys (length ▸ State.bufBytes_eq holds)

end Sys2Proof.Machine
end

section
/-!
SUPPORT. Proofs of the family 42_byte_decrypt.md: the keystream byte in numbers and its distribution (rules R150,
R152), the byte decryptor and its inverse (rules R151, R153), and the DECRYPT_BYTE command (rule R160).
-/

namespace Sys2Proof.Machine

/-! ### The keystream byte -/

theorem keystreamByte_toNat (key2 : Word) : (keystreamByte key2).toNat =
    (key2.toNat ||| 2) * ((key2.toNat ||| 2) ^^^ 1) % 2 ^ 32 / 256 % 256 := by
  have low : keystreamByte key2 = lowByte (((key2 ||| 2) * ((key2 ||| 2) ^^^ 1)) >>> 8) := low_byte_mask _
  have two : (2 : Word).toNat = 2 := rfl
  have one : (1 : Word).toNat = 1 := rfl
  rw [low, lowByte_eq, BitVec.toNat_ofNat, BitVec.toNat_ushiftRight, Nat.shiftRight_eq_div_pow, BitVec.toNat_mul,
    BitVec.toNat_xor, BitVec.toNat_or, two, one]

/-- Settles O12: the formula holds in numbers, and the keystream byte runs on the samples. -/
theorem keystreamByteFormula : Obligations.KeystreamByteFormula :=
  ⟨keystreamByte_toNat, by decide⟩

/-- The reduction modulo 2^32 does not reach bits [15:8] of the product (rule R152 (a)). -/
theorem keystreamByte_toNat_unbounded (key2 : Word) : (keystreamByte key2).toNat =
    (key2.toNat ||| 2) * ((key2.toNat ||| 2) ^^^ 1) / 256 % 256 := by
  rw [keystreamByte_toNat]
  omega

/-- Bits [15:8] of the product depend on the low 16 bits of its factors alone (rule R152 (a)). -/
theorem keystreamByte_toNat_low_half (key2 : Word) : (keystreamByte key2).toNat =
    (key2.toNat % 2 ^ 16 ||| 2) * ((key2.toNat % 2 ^ 16 ||| 2) ^^^ 1) % 2 ^ 16 / 256 % 256 := by
  have factor : key2.toNat % 2 ^ 16 ||| 2 = (key2.toNat ||| 2) % 2 ^ 16 := (Nat.or_mod_two_pow (b := 2)).symm
  have other : (key2.toNat ||| 2) % 2 ^ 16 ^^^ 1 = ((key2.toNat ||| 2) ^^^ 1) % 2 ^ 16 :=
    (Nat.xor_mod_two_pow (b := 1)).symm
  rw [factor, other, ← Nat.mul_mod, keystreamByte_toNat_unbounded]
  omega

theorem mul_xor_one (x : Nat) : x * (x ^^^ 1) = 2 * (x / 2) * (2 * (x / 2) + 1) := by
  obtain even | odd := x.even_or_odd
  · rw [Nat.xor_one_of_even even, Nat.two_mul_div_two_of_even even]
  · rw [Nat.xor_one_of_odd odd, Nat.two_mul_div_two_add_one_of_odd odd,
      Nat.two_mul_odd_div_two (Nat.odd_iff.mp odd), mul_comm]

theorem or_two_div_two (n : Nat) : (n ||| 2) / 2 = 2 * (n / 4) + 1 := by
  have upper : (n ||| 2) / 2 / 2 = n / 2 / 2 := by rw [Nat.or_div_two, Nat.or_div_two, Nat.or_zero]
  have lowest : (n ||| 2) / 2 % 2 = 1 := by
    rw [Nat.or_div_two, Nat.or_mod_two_eq_one]
    exact .inr rfl
  omega

/-- k and k ^ 1 are two consecutive numbers, which the two low bits of key2 do not change (rule R152 (b)). -/
theorem or_two_mul_xor_one (n : Nat) :
    (n ||| 2) * ((n ||| 2) ^^^ 1) = 4 * ((4 * (n / 4) + 1) * (n / 4 + 1)) + 2 := by
  rw [mul_xor_one, or_two_div_two]
  ring

/-- Bits [15:2] of the product `k * (k ^ 1)`, for `y` = key2[31:2]. -/
def maskProduct (y : Nat) : Nat := (4 * y + 1) * (y + 1) % 2 ^ 14

theorem keystreamByte_toNat_eq_maskProduct (key2 : Word) :
    (keystreamByte key2).toNat = maskProduct (key2.toNat / 4) / 64 := by
  rw [keystreamByte_toNat_unbounded, or_two_mul_xor_one, maskProduct]
  omega

theorem maskProduct_mod (y : Nat) : maskProduct (y % 2 ^ 14) = maskProduct y :=
  ((((Nat.mod_modEq y _).mul_left 4).add_right 1).mul ((Nat.mod_modEq y _).add_right 1))

/-- The mask is a function of key2[15:2] (rule R152 (b)). -/
theorem keystreamByte_congr {x y : Word} (h : x.extractLsb' 2 14 = y.extractLsb' 2 14) :
    keystreamByte x = keystreamByte y := by
  have bits (v : Word) : (v.extractLsb' 2 14).toNat = v.toNat / 4 % 2 ^ 14 := by
    rw [BitVec.extractLsb'_toNat, Nat.shiftRight_eq_div_pow]
  rw [← BitVec.toNat_inj, keystreamByte_toNat_eq_maskProduct, keystreamByte_toNat_eq_maskProduct,
    ← maskProduct_mod, ← bits, h, bits, maskProduct_mod]

/-- The difference of two values is that of their arguments times an odd number, so modulo 2^14 it is 0 only if
theirs is. -/
theorem maskProduct_injOn : Set.InjOn maskProduct (Finset.range (2 ^ 14)) := by
  intro y hy z hz (same : (4 * y + 1) * (y + 1) % 2 ^ 14 = (4 * z + 1) * (z + 1) % 2 ^ 14)
  have factored : (((4 * z + 1) * (z + 1) : Nat) : Int) - ((4 * y + 1) * (y + 1) : Nat) =
      (2 * (2 * (z + y) + 2) + 1) * (z - y) := by
    push_cast
    ring
  have divides := Nat.modEq_iff_dvd.mp same
  rw [factored] at divides
  have odd : IsCoprime ((2 ^ 14 : Nat) : Int) (2 * (2 * (z + y) + 2) + 1) := by
    rw [Nat.cast_pow, Nat.cast_ofNat]
    exact (Int.isCoprime_two_left.mpr (odd_two_mul_add_one _)).pow_left
  have args := Nat.modEq_iff_dvd.mpr (odd.dvd_of_dvd_mul_left divides)
  exact Nat.ModEq.eq_of_lt_of_lt args (Finset.mem_range.mp hy) (Finset.mem_range.mp hz)

theorem maskProduct_image : (Finset.range (2 ^ 14)).image maskProduct = Finset.range (2 ^ 14) := by
  refine Finset.eq_of_subset_of_card_le (fun v hv => ?_) (Finset.card_image_of_injOn maskProduct_injOn).ge
  obtain ⟨y, -, rfl⟩ := Finset.mem_image.mp hv
  exact Finset.mem_range.mpr (Nat.mod_lt _ (by decide))

/-- `maskProduct` permutes the numbers below 2^14, so it takes the 64 values of a block 64 times in all. -/
theorem card_maskProduct_div (m : Byte) :
    ((Finset.range (2 ^ 14)).filter fun y => maskProduct y / 64 = m.toNat).card = 64 := by
  have block : (Finset.range (2 ^ 14)).filter (fun v => v / 64 = m.toNat) =
      Finset.Ico (64 * m.toNat) (64 * m.toNat + 64) := by
    ext v
    rw [Finset.mem_filter, Finset.mem_range, Finset.mem_Ico]
    omega
  have injective := maskProduct_injOn.mono (Finset.coe_subset.mpr
    (Finset.filter_subset (fun y => maskProduct y / 64 = m.toNat) _))
  rw [← Finset.card_image_of_injOn injective, ← Finset.filter_image (p := fun v => v / 64 = m.toNat),
    maskProduct_image, block, Nat.card_Ico, Nat.add_sub_cancel_left]

/-- Every byte is the mask of 64 values of key2[15:2] (rule R152 (c)). -/
theorem count_keystreamByte (m : Byte) : ((List.range (2 ^ 14)).filter
    fun y => keystreamByte (BitVec.ofNat 32 (4 * y)) = m).length = 64 := by
  have mask : ∀ y ∈ List.range (2 ^ 14),
      decide (keystreamByte (BitVec.ofNat 32 (4 * y)) = m) = decide (maskProduct y / 64 = m.toNat) := by
    intro y hy
    have index : (BitVec.ofNat 32 (4 * y)).toNat / 4 = y := by
      rw [BitVec.toNat_ofNat]
      have := List.mem_range.mp hy
      omega
    rw [decide_eq_decide, ← BitVec.toNat_inj, keystreamByte_toNat_eq_maskProduct, index]
  rw [List.filter_congr mask]
  exact card_maskProduct_div m

/-- Settles O13: the mask is the upper 8 bits of a permutation of the 14-bit numbers, taken at key2[15:2]. -/
theorem keystreamByteProperties : Obligations.KeystreamByteProperties :=
  ⟨fun key2 => ⟨keystreamByte_toNat_unbounded key2, keystreamByte_toNat_low_half key2⟩,
    fun _ _ => keystreamByte_congr, count_keystreamByte, fun _ _ _ _ _ _ => rfl⟩

/-! ### The byte decryptor -/

/-- Settles O14: each corner case is the definition's equation with an XOR that cancels, and the byte decryptor runs on
the sample. -/
theorem decryptByteFeedsThePlaintextBack : Obligations.DecryptByteFeedsThePlaintextBack := by
  refine ⟨fun _ _ => rfl, fun ks => ?_, fun ks => ?_, fun ks c zero => ?_, by decide⟩
  · rw [decryptByte, BitVec.xor_self]
    rfl
  · exact BitVec.zero_xor
  · simp only [decryptByte, zero, BitVec.ofNat_eq_ofNat, BitVec.xor_zero]

/-- Both directions use the same mask and the same plaintext (rule R153). -/
theorem decryptByte_encryptByte (ks : KeyState) (p : Byte) :
    decryptByte ks (encryptByte ks p).1 = (p, (encryptByte ks p).2) := by
  simp only [decryptByte, encryptByte, BitVec.xor_assoc, BitVec.xor_self, BitVec.xor_zero]

/-- Settles O15: the encryption's ciphertext byte and state are what `decryptByte_encryptByte` speaks of. -/
theorem decryptInvertsEncrypt : Obligations.DecryptInvertsEncrypt := by
  refine fun ks p => ⟨rfl, fun c ks' encrypted => ?_⟩
  have inverse := decryptByte_encryptByte ks p
  rwa [encrypted] at inverse

/-- Settles O16: by induction on the plaintext, from whatever key state the bytes before it left. -/
theorem decryptBufferInvertsEncryptBuffer : Obligations.DecryptBufferInvertsEncryptBuffer := by
  intro ks ps
  induction ps generalizing ks with
  | nil => rfl
  | cons p ps ih => rw [encryptBuffer, decryptBuffer, decryptByte_encryptByte, ih]

/-! ### DECRYPT_BYTE -/

theorem exec_decryptByte {s : State} {p : Pend} (hp : s.pend = some p) :
    exec .decryptByte s = .next (decryptByteEffect s p) := completeWith_some hp _

theorem decryptByteEffect_uninit {s : State} (uninit : s.phase = .uninit) (p : Pend) :
    decryptByteEffect s p = s.raise .sequence := if_pos uninit

theorem decryptByteEffect_range {s : State} {p : Pend} (positioned : s.phase = .positioned)
    (above : 256 ≤ p.value.toNat) : decryptByteEffect s p = s.raise .range := by
  have notByte : inByteRange p.value = false := by
    rw [← Bool.not_eq_true, inByteRange_iff]
    exact above.not_gt
  rw [decryptByteEffect, if_neg (by simp [positioned]), if_pos notByte]

theorem decryptByteEffect_success {s : State} {p : Pend} (positioned : s.phase = .positioned)
    (byte : p.value.toNat < 256) : decryptByteEffect s p =
      (((s.setKeys (decryptByte s.keys (lowByte p.value)).2).setResult
        ((decryptByte s.keys (lowByte p.value)).1.setWidth 32)).advance 1).succeed := by
  have isByte := (inByteRange_iff p.value).mpr byte
  rw [decryptByteEffect, if_neg (by simp [positioned]), if_neg (by simp [isByte])]

/-- Settles O20: the effect has one equation per outcome. -/
theorem decryptByteDecryptsOneByte : Obligations.DecryptByteDecryptsOneByte := by
  intro s p hp
  rw [exec_decryptByte hp]
  refine ⟨fun uninit => ?_, fun positioned above => ?_, fun positioned byte => ?_, upper_zero_iff p.a0⟩
  · rw [decryptByteEffect_uninit uninit]
    rfl
  · rw [decryptByteEffect_range positioned above]
    rfl
  · rw [decryptByteEffect_success positioned byte, lowByte_eq]
    rfl

end Sys2Proof.Machine
end

section
/-!
SUPPORT. Proofs of the family 43_buffer_decrypt.md: the buffer decryptor on a sequence in two parts (rules R170, R171),
the DECRYPT_BUF command with its exits (rules R180, R181), and its equivalence with a run of DECRYPT_BYTE commands
(rule R182).
-/

namespace Sys2Proof.Machine

/-! ### The buffer decryptor -/

theorem decryptBuffer_length (ks : KeyState) (cs : List Byte) : (decryptBuffer ks cs).1.length = cs.length := by
  induction cs generalizing ks with
  | nil => rfl
  | cons c cs ih => rw [decryptBuffer, List.length_cons, ih, List.length_cons]

/-- Chunking: the second part is decrypted from the state the first part left (rule R171 (c)). -/
theorem decryptBuffer_append (ks : KeyState) (b1 b2 : List Byte) : decryptBuffer ks (b1 ++ b2) =
    ((decryptBuffer ks b1).1 ++ (decryptBuffer (decryptBuffer ks b1).2 b2).1,
      (decryptBuffer (decryptBuffer ks b1).2 b2).2) := by
  induction b1 generalizing ks with
  | nil => rfl
  | cons c b1 ih => rw [List.cons_append, decryptBuffer, ih]; rfl

/-- Settles O17: one more byte is a second part of length 1. -/
theorem decryptBufferRunsInOrder : Obligations.DecryptBufferRunsInOrder :=
  ⟨fun _ => rfl, fun ks cs c => decryptBuffer_append ks cs [c], by decide⟩

/-- Settles O18: by `decryptBuffer_append` for the two parts, and by `decryptBuffer_length` for where the second output
begins. -/
theorem bufferDecryptorProperties : Obligations.BufferDecryptorProperties := by
  refine ⟨decryptBuffer_length, fun _ _ => rfl, fun ks b1 b2 => ⟨decryptBuffer_append ks b1 b2, ?_⟩, fun _ => rfl,
    fun _ _ _ _ keys bytes => keys ▸ bytes ▸ rfl⟩
  rw [decryptBuffer_append, ← decryptBuffer_length ks b1, List.drop_left]

/-! ### DECRYPT_BUF's exits -/

theorem exec_decryptBuf {s : State} {p : Pend} (hp : s.pend = some p) :
    exec .decryptBuf s = .next (decryptBufEffect s p) := completeWith_some hp _

theorem validRange_eq_false {memSize : Nat} {a n : Word} (nonempty : n ≠ 0) (past : memSize < a.toNat + n.toNat) :
    validRange memSize a n = false := by
  rw [← Bool.not_eq_true, validRange_iff]
  exact not_or.mpr ⟨nonempty, past.not_ge⟩

theorem decryptBufEffect_uninit {s : State} (uninit : s.phase = .uninit) (p : Pend) :
    decryptBufEffect s p = s.raise .sequence := if_pos uninit

section

/-! Past the checks of PHASE and n = 0 the ranges decide, the source range first (rule R205). -/

variable {s : State} {p : Pend} (positioned : s.phase = .positioned) (nonempty : p.len ≠ 0)
include positioned nonempty

theorem decryptBufEffect_source_past (past : s.params.memSize < p.src.toNat + p.len.toNat) :
    decryptBufEffect s p = s.raise .argument := by
  rw [decryptBufEffect, if_neg (by simp [positioned]), if_neg nonempty, if_pos (validRange_eq_false nonempty past)]

variable (hsrc : p.src.toNat + p.len.toNat ≤ s.params.memSize)
include hsrc

theorem decryptBufEffect_destination_past (past : s.params.memSize < p.dst.toNat + p.len.toNat) :
    decryptBufEffect s p = s.raise .resource := by
  have validSrc := (validRange_iff s.params.memSize p.src p.len).mpr (.inr hsrc)
  rw [decryptBufEffect, if_neg (by simp [positioned]), if_neg nonempty, if_neg (by simp [validSrc]),
    if_pos (validRange_eq_false nonempty past)]

theorem decryptBufEffect_overlap (hdst : p.dst.toNat + p.len.toNat ≤ s.params.memSize) (distinct : p.src ≠ p.dst)
    (left : p.src.toNat < p.dst.toNat + p.len.toNat) (right : p.dst.toNat < p.src.toNat + p.len.toNat) :
    decryptBufEffect s p = s.raise .argument := by
  have validSrc := (validRange_iff s.params.memSize p.src p.len).mpr (.inr hsrc)
  have validDst := (validRange_iff s.params.memSize p.dst p.len).mpr (.inr hdst)
  rw [decryptBufEffect, if_neg (by simp [positioned]), if_neg nonempty, if_neg (by simp [validSrc]),
    if_neg (by simp [validDst]), if_pos ⟨distinct, (overlap_iff _ _ _).mpr ⟨left, right⟩⟩]

end

/-- Settles O22: the effect has one equation per exit. -/
theorem decryptBufChecksInOrder : Obligations.DecryptBufChecksInOrder := by
  intro s p hp raised
  rw [exec_decryptBuf hp]
  exact ⟨fun uninit => congrArg _ (decryptBufEffect_uninit uninit p),
    fun positioned empty => congrArg _ (decryptBufEffect_empty positioned empty),
    fun positioned nonempty past => congrArg _ (decryptBufEffect_source_past positioned nonempty past),
    fun positioned nonempty hsrc past =>
      congrArg _ (decryptBufEffect_destination_past positioned nonempty hsrc past),
    fun positioned nonempty hsrc hdst distinct left right =>
      congrArg _ (decryptBufEffect_overlap positioned nonempty hsrc hdst distinct left right)⟩

/-! ### DECRYPT_BUF's success -/

/-- Settles O21: `exec_decryptBuf_decrypts` gives the keys and the destination range, the loop's frame the other bytes,
and the effect's equation the other fields. -/
theorem decryptBufDecryptsTheRange : Obligations.DecryptBufDecryptsTheRange := by
  intro s p hp positioned nonempty hsrc hdst apart
  obtain ⟨t, runs, keys, out⟩ := exec_decryptBuf_decrypts hp positioned hsrc hdst apart
  have effect := (Host.Outcome.next.inj (runs.symm.trans (exec_decryptBuf hp))).trans
    (decryptBufEffect_success positioned nonempty hsrc hdst apart)
  refine ⟨t, runs, out, keys, fun a outside => ?_, ?_⟩
  · rw [effect]
    exact decryptLoop_read_outside _ _ _ _ _ _ _ outside
  · rw [effect]
    rfl

/-! ### A run of DECRYPT_BYTE commands -/

/-- The state a DECRYPT_BYTE issued with the byte `c` as its ARG0 leaves in POSITIONED. -/
def State.afterByteCommand (s : State) (c : Byte) : State :=
  (((((s.setArg0 (c.setWidth 32)).issue 0x00000002).setKeys (decryptByte s.keys c).2).setResult
    ((decryptByte s.keys c).1.setWidth 32)).advance 1).succeed

theorem exec_byteCommand {s : State} (positioned : s.phase = .positioned) (c : Byte) :
    exec .decryptByte ((s.setArg0 (c.setWidth 32)).issue 0x00000002) = .next (s.afterByteCommand c) := by
  have byte : (c.setWidth 32).toNat < 256 := (upper_zero_iff _).mp (upper_zero_of_byte c)
  have low : lowByte (c.setWidth 32) = c := low_byte_setWidth c
  rw [exec_decryptByte (State.issue_pend _ _), decryptByteEffect_success (by exact positioned) (by exact byte)]
  simp only [State.afterByteCommand, Pend.value, State.setArg0_arg0, State.issue_keys, State.setArg0_keys, low]

@[simp] theorem State.afterByteCommand_pos (s : State) (c : Byte) :
    (s.afterByteCommand c).pos = s.pos.map (· + 1) := rfl

theorem byteCommands_cons {s u : State} {c : Byte} {cs out : List Byte} (positioned : s.phase = .positioned)
    (rest : byteCommands (s.afterByteCommand c) cs = .next (out, u)) :
    byteCommands s (c :: cs) = .next ((decryptByte s.keys c).1 :: out, u) := by
  have plain : (s.afterByteCommand c).result.setWidth 8 = (decryptByte s.keys c).1 :=
    BitVec.setWidth_setWidth_of_le _ (by decide)
  simp only [byteCommands, exec_byteCommand positioned, rest, plain]

/-- The run is `decrypt_buffer`, and RESULT holds the last plaintext byte, if there is one (rule R182). -/
theorem byteCommands_decrypt {s : State} (positioned : s.phase = .positioned) (cs : List Byte) :
    ∃ u, byteCommands s cs = .next ((decryptBuffer s.keys cs).1, u) ∧ u.keys = (decryptBuffer s.keys cs).2 ∧
      u.pos = s.pos.map (· + cs.length) ∧
      u.result = ((decryptBuffer s.keys cs).1.getLast?.map (·.setWidth 32)).getD s.result := by
  induction cs generalizing s with
  | nil => exact ⟨s, rfl, rfl, Option.map_id'.symm, rfl⟩
  | cons c cs ih =>
    obtain ⟨u, runs, keys, pos, result⟩ := ih (s := s.afterByteCommand c) positioned
    refine ⟨u, byteCommands_cons positioned runs, keys, ?_, ?_⟩
    · simp only [pos, State.afterByteCommand_pos, Option.map_map, Function.comp_def, List.length_cons, Nat.add_assoc,
        Nat.add_comm 1]
    · rw [result, decryptBuffer, List.getLast?_cons, Option.map_some, Option.getD_some]
      exact Option.getD_map _ _ _

/-- Settles O53: both sides are `decrypt_buffer` of the source bytes from the same keys. -/
theorem decryptBufEqualsByteCommands : Obligations.DecryptBufEqualsByteCommands := by
  intro s p hp positioned nonempty hsrc hdst apart
  obtain ⟨t, completes, out, keys, -, fields⟩ :=
    decryptBufDecryptsTheRange s p hp positioned nonempty hsrc hdst apart
  obtain ⟨u, runs, uKeys, uPos, uResult⟩ :=
    byteCommands_decrypt positioned (s.bufBytes p.a0.toNat p.a2.toNat)
  rw [State.bufBytes_length] at uPos
  refine ⟨_, u, t, runs, completes, keys.trans uKeys.symm, ?_, out, ?_, by rw [fields]⟩
  · rw [fields, uPos]
  · have inhabited : (decryptBuffer s.keys (s.bufBytes p.a0.toNat p.a2.toNat)).1.getLast? ≠ none := fun empty => by
      rw [List.getLast?_eq_none_iff, ← List.length_eq_zero_iff, decryptBuffer_length, State.bufBytes_length] at empty
      exact nonempty (BitVec.eq_of_toNat_eq empty)
    obtain ⟨last, isLast⟩ := Option.ne_none_iff_exists'.mp inhabited
    rw [uResult, isLast]
    rfl

end Sys2Proof.Machine
end

section
/-!
SUPPORT. Proofs of the family 60_exceptions.md, part 1: which error a command reports (rules R201, R205), and what an
error changes and what it leaves (rules R202, R206).
-/

namespace Sys2Proof.Machine

/-! ### The error of each command -/

theorem Phase.positioned_of_ne_uninit {ph : Phase} (h : ph ≠ .uninit) : ph = .positioned := by
  cases ph with
  | uninit => exact absurd rfl h
  | positioned => rfl

/-- ERR after an INIT (rule R205). -/
theorem initEffect_err (s : State) (p : Pend) : (initEffect s p).err =
    if 0 < p.a1.toNat ∧ s.params.memSize < p.a0.toNat + p.a1.toNat then .argument else .ok := by
  have invalid : 0 < p.a1.toNat ∧ s.params.memSize < p.a0.toNat + p.a1.toNat ↔
      ¬ validRange s.params.memSize p.a0 p.a1 = true := by
    rw [validRange_iff, not_or, not_le, Nat.pos_iff_ne_zero, ← BitVec.toNat_inj]
    rfl
  simp only [invalid, ite_not]
  exact apply_ite State.err _ _ _

/-- ERR after a DECRYPT_BYTE (rule R205). -/
theorem decryptByteEffect_err (s : State) (p : Pend) : (decryptByteEffect s p).err =
    if s.phase = .uninit then .sequence else if 256 ≤ p.a0.toNat then .range else .ok := by
  split_ifs with uninit above
  · rw [decryptByteEffect_uninit uninit, State.raise_err]
  · rw [decryptByteEffect_range (Phase.positioned_of_ne_uninit uninit) above, State.raise_err]
  · rw [decryptByteEffect_success (Phase.positioned_of_ne_uninit uninit) (not_le.mp above), State.succeed_err]

/-- ERR after a DECRYPT_BUF (rule R205). -/
theorem decryptBufEffect_err (s : State) (p : Pend) : (decryptBufEffect s p).err =
    if s.phase = .uninit then .sequence
    else if p.a2 = 0 then .ok
    else if s.params.memSize < p.a0.toNat + p.a2.toNat then .argument
    else if s.params.memSize < p.a1.toNat + p.a2.toNat then .resource
    else if p.a0 ≠ p.a1 ∧ p.a0.toNat < p.a1.toNat + p.a2.toNat ∧
        p.a1.toNat < p.a0.toNat + p.a2.toNat then .argument
    else .ok := by
  split_ifs with uninit empty srcPast dstPast overlaps
  · rw [decryptBufEffect_uninit uninit, State.raise_err]
  all_goals have positioned := Phase.positioned_of_ne_uninit uninit
  · rw [decryptBufEffect_empty positioned empty, State.succeed_err]
  · rw [decryptBufEffect_source_past positioned empty srcPast, State.raise_err]
  · rw [decryptBufEffect_destination_past positioned empty (not_lt.mp srcPast) dstPast, State.raise_err]
  · obtain ⟨distinct, left, right⟩ := overlaps
    rw [decryptBufEffect_overlap positioned empty (not_lt.mp srcPast) (not_lt.mp dstPast) distinct left right,
      State.raise_err]
  · have apart : p.a0 = p.a1 ∨ p.a0.toNat + p.a2.toNat ≤ p.a1.toNat ∨
        p.a1.toNat + p.a2.toNat ≤ p.a0.toNat := by
      by_contra shared
      simp only [not_or, not_le] at shared
      obtain ⟨distinct, right, left⟩ := shared
      exact overlaps ⟨distinct, left, right⟩
    rw [decryptBufEffect_success positioned empty (not_lt.mp srcPast) (not_lt.mp dstPast) apart, State.succeed_err]

theorem exec_init {s : State} {p : Pend} (hp : s.pend = some p) :
    exec .init s = .next (initEffect s p) := completeWith_some hp _

/-- The legal words are the values 1, 2 and 3 (rule R97). -/
theorem legalWord_iff_toNat {w : Word} : LegalWord w ↔ w.toNat = 1 ∨ w.toNat = 2 ∨ w.toNat = 3 := by
  have op (byte : w.toNat < 256) : (opField w = 0x01 ∨ opField w = 0x02 ∨ opField w = 0x03) ↔
      (w.toNat = 1 ∨ w.toNat = 2 ∨ w.toNat = 3) :=
    or_congr (opField_eq_iff byte _) (or_congr (opField_eq_iff byte _) (opField_eq_iff byte _))
  rw [LegalWord, rsvField_eq_zero_iff]
  refine ⟨fun ⟨byte, legal⟩ => (op byte).mp legal, fun value => ?_⟩
  have byte : w.toNat < 256 := by omega
  exact ⟨byte, (op byte).mpr value⟩

/-- Settles O23: each command's effect has its chain of errors, and any other word raises ILLEGAL. -/
theorem oneErrorInPriorityOrder : Obligations.OneErrorInPriorityOrder := by
  intro s p hp
  by_cases legal : LegalWord p.cmd
  · obtain ⟨i, decoded⟩ := legalWord_iff_decodes.mp legal
    have word := decode_eq_ok decoded
    rw [completeWord_decoded decoded]
    cases i with
    | init =>
      have value : p.cmd.toNat = 1 := congrArg BitVec.toNat word
      exact ⟨_, exec_init hp, by simpa [value] using initEffect_err s p⟩
    | decryptByte =>
      have value : p.cmd.toNat = 2 := congrArg BitVec.toNat word
      exact ⟨_, exec_decryptByte hp, by simpa [value] using decryptByteEffect_err s p⟩
    | decryptBuf =>
      have value : p.cmd.toNat = 3 := congrArg BitVec.toNat word
      exact ⟨_, exec_decryptBuf hp, by simpa [value, ← BitVec.toNat_inj] using decryptBufEffect_err s p⟩
  · have value : 256 ≤ p.cmd.toNat ∨ p.cmd.toNat = 0 ∨ 4 ≤ p.cmd.toNat := by
      rw [legalWord_iff_toNat] at legal
      omega
    exact ⟨_, completeWord_illegal hp legal, by rw [if_pos value, State.raise_err]⟩

/-! ### What an error changes -/

/-- A completion either succeeds, and logs nothing, or is `raise` of an error. -/
theorem completeWord_succeeds_or_raises {w : Word} {s t : State} (h : completeWord w s = .next t) :
    (t.err = .ok ∧ t.errLog = s.errLog) ∨ ∃ e, e ≠ .ok ∧ t = s.raise e := by
  obtain ⟨p, -, ⟨-, -, rfl⟩ | ⟨-, -, -, rfl⟩ | ⟨-, -, -, rfl⟩ | ⟨-, -, -, -, -, rfl⟩ | error⟩ :=
    completeWord_cases h
  case inr.inr.inr.inr => exact .inr error
  all_goals exact .inl ⟨rfl, rfl⟩

theorem completeWord_raises {w : Word} {s t : State} (h : completeWord w s = .next t) (error : t.err ≠ .ok) :
    t = s.raise t.err := by
  obtain ⟨ok, -⟩ | ⟨e, -, rfl⟩ := completeWord_succeeds_or_raises h
  · exact absurd ok error
  · rfl

theorem State.untouchedByError_raise (s : State) (e : ErrCode) : s.UntouchedByError (s.raise e) :=
  ⟨rfl, rfl, rfl, rfl, rfl, rfl, rfl, rfl, rfl, rfl, rfl, rfl⟩

/-- Settles O24: an error is `raise`, which writes ERR, BUSY, PEND and the log alone. -/
theorem errorsArePrecise : Obligations.ErrorsArePrecise := by
  intro s t p _ completed error
  obtain ⟨idle, empty⟩ := completeWord_ends completed
  refine ⟨idle, empty, ?_⟩
  rw [completeWord_raises completed error]
  exact s.untouchedByError_raise t.err

/-! ### ERR does not persist -/

/-- The state with ERR replaced. -/
def State.withErr (s : State) (e : ErrCode) : State := { s with err := e }

theorem initEffect_withErr (s : State) (e : ErrCode) : initEffect (s.withErr e) = initEffect s := by
  funext p
  have loop := initLoop_congr (s := s.withErr e) (t := s) fun _ => rfl
  unfold initEffect
  rw [loop]
  rfl

/-- No command reads ERR, and every one writes it. -/
theorem exec_withErr (i : Instr) (s : State) (e : ErrCode) : exec i (s.withErr e) = exec i s := by
  cases i with
  | init => exact congrArg (completeWith · s) (initEffect_withErr s e)
  | decryptByte => rfl
  | decryptBuf => rfl

theorem completeWord_withErr (w : Word) (s : State) (e : ErrCode) :
    completeWord w (s.withErr e) = completeWord w s := by
  unfold completeWord
  split
  · exact exec_withErr _ s e
  · rfl

/-- The error of a completion depends on the pending command, MEM_SIZE and PHASE alone. -/
theorem completeWord_err_congr {s t s' t' : State} {p : Pend} (hs : s.pend = some p) (ht : t.pend = some p)
    (params : t.params = s.params) (phase : t.phase = s.phase) (sCompletes : completeWord p.cmd s = .next s')
    (tCompletes : completeWord p.cmd t = .next t') : t'.err = s'.err := by
  obtain ⟨_, sNext, sErr⟩ := oneErrorInPriorityOrder s p hs
  obtain ⟨_, tNext, tErr⟩ := oneErrorInPriorityOrder t p ht
  obtain rfl := Host.Outcome.next.inj (sCompletes.symm.trans sNext)
  obtain rfl := Host.Outcome.next.inj (tCompletes.symm.trans tNext)
  rw [tErr, sErr, params, phase]

/-- An error leaves all that the same command's error depends on, so issued again it raises it again (rule R206). -/
theorem completeWord_retry {s t : State} {p : Pend} (hp : s.pend = some p) (h : completeWord p.cmd s = .next t)
    (error : t.err ≠ .ok) :
    ∃ u, completeWord p.cmd { t with busy := true, pend := some p } = .next u ∧ u.err = t.err := by
  obtain ⟨u, again⟩ := completeWord_completes (s := { t with busy := true, pend := some p }) rfl p.cmd
  obtain ⟨-, -, params, -, -, -, -, -, phase, -⟩ := errorsArePrecise s t p hp h error
  exact ⟨u, again,
    completeWord_err_congr (t := { t with busy := true, pend := some p }) hp rfl params phase h again⟩

/-- Settles O25: a completion does not read ERR, an error leaves what it depends on, and `raise` logs its code. -/
theorem errorsDoNotPersist : Obligations.ErrorsDoNotPersist := by
  refine fun s t p hp completed => ⟨fun e => (completeWord_withErr p.cmd s e).trans completed,
    completeWord_retry hp completed, ?_⟩
  obtain ⟨ok, log⟩ | ⟨e, error, rfl⟩ := completeWord_succeeds_or_raises completed
  · rw [if_pos ok, log]
  · exact (if_neg error).symm

end Sys2Proof.Machine
end

section
/-!
SUPPORT. Proofs of the family 60_exceptions.md, part 2: which host moves there are (rules R215, R240), reset (rules
R210, R230), and that a pending command completes (rules R203, R204).
-/

namespace Sys2Proof.Machine

/-! ### Host writes while a command is pending -/

/-- The ranges of rule R240 (b) are those of the command the pending word decodes to. -/
theorem Pend.touches_iff {p : Pend} {a : Nat} : p.touches a = true ↔
    (p.cmd = 0x00000001 ∧ p.a0.toNat ≤ a ∧ a < p.a0.toNat + p.a1.toNat) ∨
    (p.cmd = 0x00000003 ∧
      ((p.a0.toNat ≤ a ∧ a < p.a0.toNat + p.a2.toNat) ∨
        (p.a1.toNat ≤ a ∧ a < p.a1.toNat + p.a2.toNat))) := by
  have init : p.cmd = 0x00000001 ↔ decode p.cmd = .ok .init := (decode_eq_ok_iff (i := .init)).symm
  have decryptBuf : p.cmd = 0x00000003 ↔ decode p.cmd = .ok .decryptBuf :=
    (decode_eq_ok_iff (i := .decryptBuf)).symm
  rw [init, decryptBuf]
  unfold Pend.touches
  split
  case h_1 decoded => simp [decoded, inRange_iff, Pend.pwBase, Pend.pwLen]
  case h_2 decoded => simp [decoded]
  case h_3 decoded => simp [decoded, inRange_iff, Pend.src, Pend.dst, Pend.len]
  case h_4 decoded => simp [decoded]

theorem State.inPendingRange_iff {s : State} {a : Nat} :
    s.InPendingRange a ↔ ∃ p, s.pend = some p ∧ p.touches a = true := by
  simp only [State.InPendingRange, Pend.touches_iff]

/-- The host may write a BUF byte at BUSY = 0 or outside the pending command's ranges (rule R215). -/
theorem State.mayWriteBuf_iff {s : State} {a : Nat} :
    s.mayWriteBuf a = true ↔ s.busy = false ∨ ¬ s.InPendingRange a := by
  rw [State.inPendingRange_iff]
  unfold State.mayWriteBuf
  split
  next p busy hp => simp [busy, hp]
  next notPending =>
    refine iff_of_true rfl (or_iff_not_imp_left.mpr fun busy pending => ?_)
    obtain ⟨p, hp, -⟩ := pending
    exact notPending p (by simpa using busy) hp

theorem hostWrite8_refused {s : State} {a : Nat} (inside : a < s.params.memSize) (busy : s.busy = true)
    (pending : s.InPendingRange a) (b : Byte) :
    hostMove (.write8 (s.params.blockBase + s.params.bufBase + a) b) s = .refused .pendingRangeWrite := by
  have disabled : ¬ s.mayWriteBuf a = true := by
    simp [State.mayWriteBuf_iff, busy, pending]
  simp only [hostMove, hostWrite8, byteTarget_buf inside, if_neg disabled]

/-- Settles O39: a CMD write at BUSY = 1 is refused, and a BUF byte may be written just outside the pending ranges. -/
theorem brokenHostDutiesAreRefused : Obligations.BrokenHostDutiesAreRefused := by
  refine fun s w a b legal busy => ⟨?_, fun inside pending => hostWrite8_refused inside busy pending b,
    fun inside outside => ⟨_, hostWrite8_buf inside (State.mayWriteBuf_iff.mpr (.inr outside)) b,
      Memory.read_write_self _ _ _ _, fun x other => Memory.read_write_other other _ _ _, rfl⟩⟩
  have cmd := hostWrite32_reg legal .cmd w
  rwa [writeReg, if_pos busy] at cmd

/-! ### Which host moves are performed -/

theorem State.registerAddr_iff {s : State} {addr : Nat} :
    s.RegisterAddr addr ↔ ∃ r, wordTarget s.params addr = .ok r := by
  simp only [wordTarget_eq_ok, State.RegisterAddr]
  exact ⟨fun ⟨off, at_off, below, aligned⟩ => ⟨_, off, at_off, below, aligned, rfl⟩,
    fun ⟨_, off, at_off, below, aligned, _⟩ => ⟨off, at_off, below, aligned⟩⟩

theorem State.bufAddr_iff {s : State} {addr a : Nat} :
    s.BufAddr addr a ↔ byteTarget s.params addr = .ok a := byteTarget_eq_ok.symm

/-- CMD stands at the base of the block's window. -/
theorem wordTarget_cmd {p : Params} {addr : Nat} {r : Option Reg} (h : wordTarget p addr = .ok r) :
    r = some .cmd ↔ addr = p.blockBase := by
  obtain ⟨off, rfl, -, -, rfl⟩ := wordTarget_eq_ok.mp h
  rw [Nat.add_eq_left]
  exact ⟨regAtOffset_eq_some, fun zero => zero ▸ rfl⟩

/-- A write to a register is performed unless it issues a command at BUSY = 1 (rule R240 (a)). -/
theorem writeReg_performed (s : State) (v : Word) (reg : Reg) :
    (∃ t, writeReg s v reg = .next t) ↔ (reg = .cmd → s.busy = false) := by
  cases reg
  case cmd => cases busy : s.busy <;> simp [writeReg, busy]
  all_goals simp [writeReg]

theorem hostWrite32_performed (s : State) (addr : Nat) (v : Word) :
    (∃ t, hostMove (.write32 addr v) s = .next t) ↔ s.Enabled (.write32 addr v) := by
  simp only [State.Enabled, State.registerAddr_iff, hostMove, hostWrite32]
  cases target : wordTarget s.params addr with
  | error r => simp
  | ok r =>
    rw [← wordTarget_cmd target]
    cases r with
    | none => simp
    | some reg => simpa using writeReg_performed s v reg

theorem hostWrite8_performed (s : State) (addr : Nat) (b : Byte) :
    (∃ t, hostMove (.write8 addr b) s = .next t) ↔ s.Enabled (.write8 addr b) := by
  simp only [State.Enabled, State.bufAddr_iff, ← State.mayWriteBuf_iff, hostMove, hostWrite8]
  cases byteTarget s.params addr with
  | error r => simp
  | ok a => cases enabled : s.mayWriteBuf a <;> simp [enabled]

theorem hostRead32_performed (s : State) (addr : Nat) :
    (∃ t, hostMove (.read32 addr) s = .next t) ↔ s.Enabled (.read32 addr) := by
  simp only [State.Enabled, State.registerAddr_iff, hostMove, hostRead32]
  cases wordTarget s.params addr with
  | error r => simp
  | ok r => cases r <;> simp

theorem hostRead8_performed (s : State) (addr : Nat) :
    (∃ t, hostMove (.read8 addr) s = .next t) ↔ s.Enabled (.read8 addr) := by
  simp only [State.Enabled, State.bufAddr_iff, hostMove, hostRead8]
  cases byteTarget s.params addr <;> simp

theorem hostMove_performed (s : State) (m : HostMove) : (∃ t, hostMove m s = .next t) ↔ s.Enabled m := by
  cases m with
  | write32 addr v => exact hostWrite32_performed s addr v
  | write8 addr b => exact hostWrite8_performed s addr b
  | read32 addr => exact hostRead32_performed s addr
  | read8 addr => exact hostRead8_performed s addr
  | otherWidth bits addr => exact iff_of_false nofun id
  | wait => exact iff_of_true ⟨_, rfl⟩ trivial
  | reset => exact iff_of_true ⟨_, rfl⟩ trivial

theorem writeReg_not_fault (s : State) (v : Word) (reg : Reg) (f : Fault) : writeReg s v reg ≠ .fault f := by
  cases reg
  case cmd => rw [writeReg]; split <;> nofun
  all_goals nofun

/-- A host move is performed or refused. -/
theorem hostMove_not_fault (s : State) (m : HostMove) (f : Fault) : hostMove m s ≠ .fault f := by
  cases m with
  | write32 addr v =>
    rw [hostMove, hostWrite32]
    split
    · nofun
    · nofun
    · exact writeReg_not_fault s v _ f
  | write8 addr b =>
    rw [hostMove, hostWrite8]
    split
    · nofun
    · split <;> nofun
  | read32 addr => rw [hostMove, hostRead32]; split <;> nofun
  | read8 addr => rw [hostMove, hostRead8]; split <;> nofun
  | otherWidth bits addr => nofun
  | wait => nofun
  | reset => nofun

/-- Settles O37: each kind of access is performed where the table enables it, and none has an arm that faults. -/
theorem hostMovesAreExactlyThoseOfTheTable : Obligations.HostMovesAreExactlyThoseOfTheTable :=
  fun s m => ⟨hostMove_performed s m, hostMove_not_fault s m⟩

/-! ### Reset -/

theorem State.hardReset_statusWord (s : State) : s.hardReset.statusWord = 0 :=
  BitVec.eq_of_toNat_eq (by rw [State.statusWord_toNat]; rfl)

/-- Settles O40: reset is always performed, and lists no byte of BUF as written. -/
theorem resetSetsEveryRegister : Obligations.ResetSetsEveryRegister :=
  fun s => ⟨s.hardReset, rfl, rfl, s.hardReset_statusWord, fun _ => rfl⟩

/-! ### A pending command completes -/

/-- The engine's turn with a command pending always completes it (rule R204). -/
theorem engineTurn_completes {s : State} (busy : s.busy = true) (pending : s.pend.isSome = true) :
    ∃ t, engineTurn s = .next t ∧ t.busy = false ∧ t.pend = none := by
  obtain ⟨p, hp⟩ := Option.isSome_iff_exists.mp pending
  obtain ⟨t, completed⟩ := completeWord_completes hp p.cmd
  exact ⟨t, by simpa only [engineTurn, if_pos busy, hp] using completed, completeWord_ends completed⟩

theorem step_completes {s : State} (busy : s.busy = true) (pending : s.pend.isSome = true) (engine : s.EngineNext) :
    ∃ t, step s = .next t ∧ t.busy = false ∧ t.pend = none := by
  rw [step_engine engine busy]
  exact engineTurn_completes (s.afterTurn_busy.trans busy) (s.afterTurn_pend ▸ pending)

/-- No host move but reset disables a pending command. -/
theorem hostMove_keeps_pending {s t : State} {m : HostMove} (busy : s.busy = true) (notReset : m ≠ .reset)
    (moved : hostMove m s = .next t) : t.busy = true ∧ t.pend = s.pend := by
  obtain ⟨same, pend⟩ | ⟨idle, -⟩ := hostMove_pend moved notReset
  · exact ⟨same.trans busy, pend⟩
  · exact absurd (busy.symm.trans idle) nofun

/-- Settles O26: the engine's turn completes any pending word, and of the host's moves only a CMD write at BUSY = 0 and
reset write BUSY and PEND. -/
theorem issuedCommandsComplete : Obligations.IssuedCommandsComplete :=
  ⟨fun _ => step_completes, fun _ _ _ => hostMove_keeps_pending⟩

/-! ### Runs -/

/-- The engine moves next, or the host has a move other than `wait`. -/
theorem State.engineNext_or_hostNext (s : State) :
    s.EngineNext ∨ ∃ m rest, s.agenda = .host m :: rest ∧ m ≠ .wait := by
  cases agenda : s.agenda with
  | nil => exact .inl (.inl agenda)
  | cons turn rest =>
    cases turn with
    | engine => exact .inl (.inr (.inl ⟨rest, agenda⟩))
    | host m =>
      by_cases waits : m = .wait
      · exact .inl (.inr (.inr ⟨rest, waits ▸ agenda⟩))
      · exact .inr ⟨m, rest, rfl, waits⟩

/-- Where the engine moves next, a state that meets the invariant has a next state: PEND holds a command if BUSY = 1,
and at BUSY = 0 the engine idles. -/
theorem step_engineNext {s : State} (inv : s.Inv) (engine : s.EngineNext) : ∃ t, step s = .next t := by
  obtain ⟨-, -, -, busy_iff, -⟩ := inv
  cases busy : s.busy with
  | true =>
    obtain ⟨t, stepped, -⟩ := step_completes busy (busy_iff ▸ busy) engine
    exact ⟨t, stepped⟩
  | false =>
    obtain ⟨-, nil, onEngine, onWait⟩ := turnsFollowTheAgenda
    obtain done | ⟨rest, agenda⟩ | ⟨rest, agenda⟩ := engine
    · exact ⟨_, nil s busy done⟩
    · exact ⟨_, onEngine s rest busy agenda⟩
    · exact ⟨_, onWait s rest busy agenda⟩

/-- Rule R215's table does not read the agenda. -/
theorem State.enabled_setAgenda {s : State} {ts : List Turn} {m : HostMove} :
    (s.setAgenda ts).Enabled m ↔ s.Enabled m := by
  cases m <;> rfl

/-- Settles O43: where the engine moves next there is a next state, and a host move is performed where enabled. -/
theorem onlyDisabledHostMovesStopARun : Obligations.OnlyDisabledHostMovesStopARun := by
  intro s inv
  obtain engine | ⟨m, rest, agenda, notWait⟩ := s.engineNext_or_hostNext
  · obtain ⟨t, stepped⟩ := step_engineNext inv engine
    rw [stepped]
    exact ⟨nofun, nofun⟩
  · rw [step_agenda_host agenda fun waits => absurd waits notWait]
    refine ⟨hostMove_not_fault _ m, fun r refused => ⟨m, rest, agenda, fun enabled => ?_⟩⟩
    obtain ⟨t, moved⟩ := (hostMove_performed _ m).mpr (State.enabled_setAgenda.mpr enabled)
    exact absurd (moved.symm.trans refused) nofun

theorem hostMove_agenda {m : HostMove} {s t : State} (h : hostMove m s = .next t) : t.agenda = s.agenda := by
  obtain ⟨v, -, -, rfl⟩ | ⟨v, -, rfl⟩ | ⟨v, -, rfl⟩ | ⟨v, -, rfl⟩ | ⟨-, rfl⟩ | ⟨a, b, -, -, -, rfl⟩ |
    ⟨-, v, rfl⟩ | ⟨-, rfl⟩ | ⟨-, rfl⟩ := hostMove_cases h <;> rfl

theorem State.steps_succ {s u : State} (h : step s = .next u) (k : Nat) :
    State.steps (k + 1) s = State.steps k u := by
  simp only [State.steps, h]

theorem State.steps_succ_next {s t : State} {k : Nat} (h : State.steps (k + 1) s = .next t) :
    ∃ u, step s = .next u ∧ State.steps k u = .next t := by
  unfold State.steps at h
  split at h
  · exact ⟨_, ‹_›, h⟩
  · cases h
  · cases h

/-- The command pending in `s` is so after each of 0 to `k` steps, and step `k + 1` completes it. -/
def State.CompletesAtStep (s : State) (k : Nat) : Prop :=
  (∀ j, j ≤ k → ∃ u, State.steps j s = .next u ∧ u.busy = true ∧ u.pend = s.pend) ∧
    ∃ v, State.steps (k + 1) s = .next v ∧ v.busy = false ∧ v.pend = none

/-- Where the engine moves next, that very step completes the pending command. -/
theorem steps_complete_at_engineNext {s : State} (busy : s.busy = true) (pending : s.pend.isSome = true)
    (engine : s.EngineNext) : s.CompletesAtStep 0 := by
  obtain ⟨v, stepped, idle, empty⟩ := step_completes busy pending engine
  refine ⟨fun j first => ⟨s, ?_, busy, rfl⟩, v, State.steps_succ stepped 0, idle, empty⟩
  rw [Nat.le_zero.mp first, State.steps]

/-- A step that leaves the command pending puts its completion off by one step. -/
theorem State.CompletesAtStep.succ {s u : State} {k : Nat} (busy : s.busy = true) (stepped : step s = .next u)
    (pend : u.pend = s.pend) (completes : u.CompletesAtStep k) : s.CompletesAtStep (k + 1) := by
  obtain ⟨before, v, run, ended⟩ := completes
  refine ⟨fun j bound => ?_, v, (State.steps_succ stepped _).trans run, ended⟩
  cases j with
  | zero => exact ⟨s, rfl, busy, rfl⟩
  | succ j =>
    rw [State.steps_succ stepped, ← pend]
    exact before j (Nat.le_of_succ_le_succ bound)

/-- By induction on the agenda, as a host move takes one turn off it and leaves the command pending. -/
theorem completesAtStep_of_run {s t : State} (busy : s.busy = true) (pending : s.pend.isSome = true)
    (noReset : Turn.host .reset ∉ s.agenda) (run : State.steps (s.agenda.length + 1) s = .next t) :
    ∃ k ≤ s.agenda.length, s.CompletesAtStep k := by
  induction turns : s.agenda generalizing s with
  | nil => exact ⟨0, Nat.zero_le _, steps_complete_at_engineNext busy pending (.inl turns)⟩
  | cons turn rest ih =>
    obtain engine | ⟨m, rest', agenda, notWait⟩ := s.engineNext_or_hostNext
    · exact ⟨0, Nat.zero_le _, steps_complete_at_engineNext busy pending engine⟩
    · obtain ⟨rfl, rfl⟩ := List.cons.inj (turns.symm.trans agenda)
      obtain ⟨u, stepped, run⟩ := State.steps_succ_next run
      have moved := (step_agenda_host agenda fun waits => absurd waits notWait).symm.trans stepped
      have notReset : m ≠ .reset := fun reset => noReset (by simp [agenda, reset])
      obtain ⟨uBusy, uPend⟩ := hostMove_keeps_pending (by exact busy) notReset moved
      have uAgenda := hostMove_agenda moved
      rw [State.setAgenda_agenda] at uAgenda
      rw [State.setAgenda_pend] at uPend
      obtain ⟨k, bound, completes⟩ := ih uBusy (uPend ▸ pending)
        (fun reset => noReset (by simp [agenda, uAgenda ▸ reset])) (by simpa [uAgenda, agenda] using run) uAgenda
      exact ⟨k + 1, Nat.succ_le_succ bound, completes.succ busy stepped uPend⟩

/-- Settles O27: the engine's turn comes at the latest when the agenda is used up. -/
theorem commandCompletesWithinTheAgenda : Obligations.CommandCompletesWithinTheAgenda := by
  intro s t busy pending noReset run
  obtain ⟨k, bound, before, v, completion⟩ := completesAtStep_of_run busy pending noReset run
  exact ⟨k, v, bound, before, completion⟩

end Sys2Proof.Machine
end
